-- ==== Sys2Proof/Word.lean ====
section
/-! DEFINITION. The two word types of CORE: the byte of the data bus and of every register but PC, and the
16-bit word of PC and of every address (00_scope.md R7). -/

namespace Sys2Proof

/-- 00_scope.md R7: the data bus and every register except PC are 8 bits. -/
abbrev Byte := BitVec 8

/-- 00_scope.md R7: PC and every address are 16 bits. -/
abbrev Word := BitVec 16

end Sys2Proof
end

