-- ==== Sys2Proof/Machine/Bits.lean ====
section
/-! DEFINITION. Byte order and extension: the one place where a 16-bit quantity is made of two bytes
(00_scope.md R10, 20_memory.md R60). -/

namespace Sys2Proof.Machine

/-- 00_scope.md R10: `concat16(hi, lo)` is `(hi << 8) | lo`. -/
def concat16 (hi lo : Byte) : Word := hi ++ lo

/-- `w[7:0]` (00_scope.md R10). -/
def loByte (w : Word) : Byte := w.setWidth 8

/-- `w[15:8]` (00_scope.md R10). -/
def hiByte (w : Word) : Byte := (w >>> 8).setWidth 8

/-- 00_scope.md R10: `zext_16(b)` zero-extends a byte. Nothing in CORE sign-extends. -/
def zext16 (b : Byte) : Word := b.setWidth 16

end Sys2Proof.Machine
end

