-- ==== Sys2Proof/Syntax.lean ====
section
/-! DEFINITION. The instructions of CORE: one constructor of `Instr` for each of the 61 rows of
spec/opcode_table.json (30_encoding.md R85), with the operand its format carries (30_encoding.md R83). -/

namespace Sys2Proof

/-- The addressing modes (30_encoding.md R87). -/
inductive Mode where
  | imp | imm | zp | zpx | abs | absx | absy | ind
  deriving DecidableEq, Repr

/-- A row's basis (30_encoding.md R84); `byClass` is the table's "class". -/
inductive Basis where
  | named | byClass | decision
  deriving DecidableEq, Repr

/-- The 32 mnemonics of spec/opcode_table.json. -/
inductive Mnemonic where
  | lda | ldx | ldy
  | sta | stx | sty
  | cmp | cpx | cpy
  | pha | php | pla | plp
  | jmp | jsr | rts
  | tax | txa | tay | tya | inx | dex | iny | dey
  | clc | sec | cli | sei | clv | cld | sed
  | nop
  deriving DecidableEq, Repr

/-- One instruction with its operand: an 8-bit immediate `value`, a zero-page address `zp`, or a 16-bit
`addr` (30_encoding.md R83). -/
inductive Instr where
  -- Loads (40_load_store.md R111 to R113)
  | ldaImm (value : Byte)
  | ldaZp (zp : Byte)
  | ldaZpx (zp : Byte)
  | ldaAbs (addr : Word)
  | ldaAbsx (addr : Word)
  | ldaAbsy (addr : Word)
  | ldxImm (value : Byte)
  | ldxZp (zp : Byte)
  | ldxAbs (addr : Word)
  | ldxAbsy (addr : Word)
  | ldyImm (value : Byte)
  | ldyZp (zp : Byte)
  | ldyZpx (zp : Byte)
  | ldyAbs (addr : Word)
  | ldyAbsx (addr : Word)
  -- Stores (40_load_store.md R114 to R116)
  | staZp (zp : Byte)
  | staZpx (zp : Byte)
  | staAbs (addr : Word)
  | staAbsx (addr : Word)
  | staAbsy (addr : Word)
  | stxZp (zp : Byte)
  | stxAbs (addr : Word)
  | styZp (zp : Byte)
  | styZpx (zp : Byte)
  | styAbs (addr : Word)
  -- Compares (41_compare.md R141 to R143)
  | cmpImm (value : Byte)
  | cmpZp (zp : Byte)
  | cmpZpx (zp : Byte)
  | cmpAbs (addr : Word)
  | cmpAbsx (addr : Word)
  | cmpAbsy (addr : Word)
  | cpxImm (value : Byte)
  | cpxZp (zp : Byte)
  | cpxAbs (addr : Word)
  | cpyImm (value : Byte)
  | cpyZp (zp : Byte)
  | cpyAbs (addr : Word)
  -- Stack (42_stack.md R160 to R163)
  | pha
  | php
  | pla
  | plp
  -- Control transfer (43_control.md R170 to R173)
  | jmpAbs (addr : Word)
  | jmpInd (addr : Word)
  | jsrAbs (addr : Word)
  | rts
  -- Transfers, increments, decrements (44_transfer_incdec.md R180 to R187)
  | tax
  | txa
  | tay
  | tya
  | inx
  | dex
  | iny
  | dey
  -- Flags (45_flags.md R190 to R196)
  | clc
  | sec
  | cli
  | sei
  | clv
  | cld
  | sed
  -- No operation (46_nop_unknown.md R200)
  | nop
  deriving DecidableEq, Repr

end Sys2Proof
end

