-- ==== Sys2Proof/Config.lean ====
section
/-! DEFINITION. The parameters of 00_scope.md R8 (REGIONS, UNKNOWN_OPCODE_POLICY, CLASS_ROWS, RAM_INIT, DEVICE_k) as
plain data, and the two free values the spec leaves open (drawn RAM bytes, device reads), which have no body.
A parameter is fixed for a machine; State carries it, read-only, so that every statement over all
states is a statement over all configurations (log 2). -/

namespace Sys2Proof

/-- UNKNOWN_OPCODE_POLICY (46_nop_unknown.md R201). -/
inductive UnknownPolicy where
  /-- A one-byte no-op: the document's behaviour, and the default. -/
  | nop
  /-- The model stops with a fault record. -/
  | fault
  /-- The model stops with the refusal mark. -/
  | refuse
  deriving DecidableEq, Repr

/-- CLASS_ROWS (30_encoding.md R84). -/
inductive ClassRows where
  /-- A class row executes by its rule: the default. -/
  | execute
  /-- A class row sets the refusal mark. -/
  | refuse
  deriving DecidableEq, Repr

/-- RAM_INIT (70_reset_and_hazards.md R243): what the bytes of a RAM region hold before they are written. -/
inductive RamInit where
  /-- Each byte is a free value until written (`Config.ramDraw`): the spec's default. -/
  | draw
  /-- A byte per offset: the listed bytes, and `fill` at every other offset. -/
  | fixed (fill : Byte) (image : List Host.Cell)
  deriving DecidableEq, Repr

/-! DEVICE_k (00_scope.md R8, 20_memory.md R58): the behaviour of a device region as plain data. A described device owns a byte
store and says what it answers and what each event does to the store; the language is the model's choice (log 31), its meaning is
in Machine/Device.lean. -/

/-- The operations of a device's expressions, on natural numbers; a comparison gives 1 or 0. -/
inductive DeviceOp where
  | add | sub | mul | div | mod | and | or | xor | shl | shr | eq | lt
  deriving DecidableEq, Repr

/-- What a device computes. -/
inductive DeviceExpr where
  | lit (n : Nat)
  /-- The region-local offset of the access (20_memory.md R54). -/
  | offset
  /-- The byte the access moves. -/
  | value
  /-- A byte under no law: a new free value at each event. -/
  | free
  /-- A byte of the device's own store. -/
  | byte (index : DeviceExpr)
  | bin (op : DeviceOp) (l r : DeviceExpr)
  /-- The second where the first is not 0, else the third. -/
  | cond (c t e : DeviceExpr)
  deriving DecidableEq, Repr

/-- What an event does to a device's own store. -/
inductive DeviceStmt where
  | skip
  /-- A byte of the store gets a value modulo 2^8. -/
  | put (index v : DeviceExpr)
  | seq (first second : DeviceStmt)
  | cond (c : DeviceExpr) (t e : DeviceStmt)
  /-- The body as many times as the count says, the count taken once, before. -/
  | loop (count : DeviceExpr) (body : DeviceStmt)
  deriving DecidableEq, Repr

/-- A described device: its store with its contents at construction, the byte it answers to a read, and what a read, a write and
a change of its own between steps (20_memory.md R67) do to the store. -/
structure DeviceProgram where
  size     : Nat
  init     : RamInit
  answer   : DeviceExpr
  onRead   : DeviceStmt
  onWrite  : DeviceStmt
  onChange : DeviceStmt
  deriving DecidableEq, Repr

/-- DEVICE_k. -/
inductive DeviceBehaviour where
  /-- No description: each read is a free value, each write recorded and otherwise without effect: the spec's default. -/
  | draw
  /-- A description. -/
  | program (d : DeviceProgram)
  deriving DecidableEq, Repr

/-- The kind of a region (20_memory.md R51, R57, R58). -/
inductive RegionKind where
  | ram (init : RamInit)
  | device (behaviour : DeviceBehaviour)
  deriving DecidableEq, Repr

/-- One region of REGIONS as the host supplies it (20_memory.md R51): it owns `[start, start + size)`. -/
structure RegionDecl where
  start : Word
  size  : Nat
  kind  : RegionKind
  deriving DecidableEq, Repr

/-- The two parameters that select how the model treats an opcode (00_scope.md R8). -/
structure Params where
  unknownOpcode : UnknownPolicy
  classRows     : ClassRows
  deriving DecidableEq, Repr

/-- All the parameters of 00_scope.md R8 (RAM_INIT and DEVICE_k stand in each region's kind). -/
structure Config where
  regions : List RegionDecl
  params  : Params
  deriving DecidableEq, Repr

/-- One request on the BUS port, with the byte moved (00_scope.md R12, 20_memory.md R62). -/
inductive BusAccess where
  | read  (addr : Word) (value : Byte)
  | write (addr : Word) (value : Byte)
  deriving DecidableEq, Repr

/-- What a device region has seen, in order (20_memory.md R58): accesses, and changes of its own between
steps (20_memory.md R67). -/
inductive DeviceEvent where
  | access (acc : BusAccess)
  | change
  deriving DecidableEq, Repr

/-- FREE VALUE (70_reset_and_hazards.md R243, `draw`): the byte at an offset of the k-th region, whose RAM or device store draws,
until it is written. Nothing constrains it (log 5). -/
opaque Config.ramDraw : Nat → Nat → Byte

/-- FREE VALUE (20_memory.md R58): the byte the k-th region, a device without a description, answers to a read of an address after
the events it has seen, and the byte a described device draws there. Nothing constrains it (log 6): any device the contract
admits is one reading of this constant. -/
opaque Config.deviceRead : Nat → List DeviceEvent → Word → Byte

/-- DESIGN CHOICE (log 3, log 4): the configuration of `State.reset`. The policies are the spec's defaults
(00_scope.md R8); the one RAM region over the whole space is the convention of 95_test_vectors.md; its image
of zeros is the model's choice. -/
def Config.default : Config :=
  { regions := [{ start := 0x0000#16, size := 0x10000, kind := .ram (.fixed 0x00#8 []) }]
    params := { unknownOpcode := .nop, classRows := .execute } }

end Sys2Proof
end

