-- ==== Sys2Proof/WellFormed.lean ====
section
/-! DEFINITION. What is well formed: instructions (every term is), and the parameters a host supplies. -/

namespace Sys2Proof

/-- An instruction the encoding can hold. 30_encoding.md R83, R85: every opcode of the table with every 8-bit or 16-bit operand
is an instruction, and the operand types hold exactly those values, so every term is well formed (log 25). -/
def Instr.wellFormed (_ : Instr) : Bool := true

/-- Offsets strictly rising: each later cell lies above. -/
def cellsRising : List Host.Cell → Bool
  | [] => true
  | c :: rest => rest.all (fun d => decide (c.1 < d.1)) && cellsRising rest

/-- A RAM image names each offset of its region at most once, in order, and none outside it (70_reset_and_hazards.md R243:
"a byte per RAM address"). -/
def RamInit.wellFormed (size : Nat) : RamInit → Bool
  | .draw => true
  | .fixed _ image => cellsRising image && image.all (fun c => decide (c.1 < size))

/-- A device's image fits its store. -/
def DeviceBehaviour.wellFormed : DeviceBehaviour → Bool
  | .draw => true
  | .program d => d.init.wellFormed d.size

/-- A region's image fits its size, a device's its store. -/
def RegionDecl.wellFormed (r : RegionDecl) : Bool :=
  match r.kind with
  | .ram init => init.wellFormed r.size
  | .device behaviour => behaviour.wellFormed

/-- The ranges of two regions share no address (20_memory.md R51; the range is R52's). -/
def RegionDecl.apart (r q : RegionDecl) : Bool :=
  decide (r.start.toNat + r.size ≤ q.start.toNat) || decide (q.start.toNat + q.size ≤ r.start.toNat) ||
    r.size == 0 || q.size == 0

/-- "must not overlap": the caller's responsibility, not the machine's (20_memory.md R59). The machine runs on overlapping
regions too. -/
def regionsDisjoint : List RegionDecl → Bool
  | [] => true
  | r :: rest => rest.all r.apart && regionsDisjoint rest

/-- The host's part of 20_memory.md R51 and 70_reset_and_hazards.md R243. No definition of the machine asks for it. -/
def Config.wellFormed (c : Config) : Bool :=
  c.regions.all RegionDecl.wellFormed && regionsDisjoint c.regions

end Sys2Proof
end

