-- ==== Sys2Proof/Decode.lean ====
section
/-! DEFINITION. The decoder: the opcode table of 30_encoding.md R98, its lookup by whole byte (R81), decoding of any bytes
with rejection by name, and the encoder. Byte values are the spec's (93_implementation_defined.md G1; log 9). -/

namespace Sys2Proof

open Sys2Proof.Machine

/-- 30_encoding.md R82: the length in bytes a mode gives. -/
def Mode.length : Mode → Nat
  | .imp => 1
  | .imm | .zp | .zpx => 2
  | .abs | .absx | .absy | .ind => 3

/-- The three formats (30_encoding.md R83): no operand byte, one, or two (low byte first). -/
inductive Build where
  /-- Format I. -/
  | implied (i : Instr)
  /-- Format B: byte 1 is the operand. -/
  | byte (f : Byte → Instr)
  /-- Format W: bytes 1 and 2 are the low and the high byte of the operand. -/
  | word (f : Word → Instr)

/-- One row of spec/opcode_table.json: the whole opcode byte it matches, its mode, its basis, and how its
instruction is built from the operand bytes. -/
structure Row where
  opcode : Byte
  mode   : Mode
  basis  : Basis
  build  : Build

/-- Loads (40_load_store.md R111 to R113). -/
def loadRows : List Row :=
  [ ⟨0xA9#8, .imm, .byClass, .byte .ldaImm⟩,
    ⟨0xA5#8, .zp, .byClass, .byte .ldaZp⟩,
    ⟨0xB5#8, .zpx, .byClass, .byte .ldaZpx⟩,
    ⟨0xAD#8, .abs, .byClass, .word .ldaAbs⟩,
    ⟨0xBD#8, .absx, .byClass, .word .ldaAbsx⟩,
    ⟨0xB9#8, .absy, .byClass, .word .ldaAbsy⟩,
    ⟨0xA2#8, .imm, .byClass, .byte .ldxImm⟩,
    ⟨0xA6#8, .zp, .byClass, .byte .ldxZp⟩,
    ⟨0xAE#8, .abs, .byClass, .word .ldxAbs⟩,
    ⟨0xBE#8, .absy, .byClass, .word .ldxAbsy⟩,
    ⟨0xA0#8, .imm, .byClass, .byte .ldyImm⟩,
    ⟨0xA4#8, .zp, .byClass, .byte .ldyZp⟩,
    ⟨0xB4#8, .zpx, .byClass, .byte .ldyZpx⟩,
    ⟨0xAC#8, .abs, .byClass, .word .ldyAbs⟩,
    ⟨0xBC#8, .absx, .byClass, .word .ldyAbsx⟩ ]

/-- Stores (40_load_store.md R114 to R116). -/
def storeRows : List Row :=
  [ ⟨0x85#8, .zp, .byClass, .byte .staZp⟩,
    ⟨0x95#8, .zpx, .byClass, .byte .staZpx⟩,
    ⟨0x8D#8, .abs, .byClass, .word .staAbs⟩,
    ⟨0x9D#8, .absx, .byClass, .word .staAbsx⟩,
    ⟨0x99#8, .absy, .byClass, .word .staAbsy⟩,
    ⟨0x86#8, .zp, .byClass, .byte .stxZp⟩,
    ⟨0x8E#8, .abs, .byClass, .word .stxAbs⟩,
    ⟨0x84#8, .zp, .byClass, .byte .styZp⟩,
    ⟨0x94#8, .zpx, .byClass, .byte .styZpx⟩,
    ⟨0x8C#8, .abs, .byClass, .word .styAbs⟩ ]

/-- Compares (41_compare.md R141 to R143). -/
def compareRows : List Row :=
  [ ⟨0xC9#8, .imm, .named, .byte .cmpImm⟩,
    ⟨0xC5#8, .zp, .byClass, .byte .cmpZp⟩,
    ⟨0xD5#8, .zpx, .byClass, .byte .cmpZpx⟩,
    ⟨0xCD#8, .abs, .byClass, .word .cmpAbs⟩,
    ⟨0xDD#8, .absx, .byClass, .word .cmpAbsx⟩,
    ⟨0xD9#8, .absy, .byClass, .word .cmpAbsy⟩,
    ⟨0xE0#8, .imm, .byClass, .byte .cpxImm⟩,
    ⟨0xE4#8, .zp, .byClass, .byte .cpxZp⟩,
    ⟨0xEC#8, .abs, .byClass, .word .cpxAbs⟩,
    ⟨0xC0#8, .imm, .byClass, .byte .cpyImm⟩,
    ⟨0xC4#8, .zp, .byClass, .byte .cpyZp⟩,
    ⟨0xCC#8, .abs, .byClass, .word .cpyAbs⟩ ]

/-- Stack (42_stack.md R160 to R163). -/
def stackRows : List Row :=
  [ ⟨0x48#8, .imp, .named, .implied .pha⟩,
    ⟨0x08#8, .imp, .named, .implied .php⟩,
    ⟨0x68#8, .imp, .named, .implied .pla⟩,
    ⟨0x28#8, .imp, .named, .implied .plp⟩ ]

/-- Control transfer (43_control.md R170 to R173). -/
def controlRows : List Row :=
  [ ⟨0x4C#8, .abs, .named, .word .jmpAbs⟩,
    ⟨0x6C#8, .ind, .named, .word .jmpInd⟩,
    ⟨0x20#8, .abs, .named, .word .jsrAbs⟩,
    ⟨0x60#8, .imp, .named, .implied .rts⟩ ]

/-- Transfers, increments, decrements (44_transfer_incdec.md R180 to R187). -/
def transferRows : List Row :=
  [ ⟨0xAA#8, .imp, .named, .implied .tax⟩,
    ⟨0x8A#8, .imp, .named, .implied .txa⟩,
    ⟨0xA8#8, .imp, .named, .implied .tay⟩,
    ⟨0x98#8, .imp, .named, .implied .tya⟩,
    ⟨0xE8#8, .imp, .named, .implied .inx⟩,
    ⟨0xCA#8, .imp, .named, .implied .dex⟩,
    ⟨0xC8#8, .imp, .named, .implied .iny⟩,
    ⟨0x88#8, .imp, .named, .implied .dey⟩ ]

/-- Flags (45_flags.md R190 to R196). -/
def flagRows : List Row :=
  [ ⟨0x18#8, .imp, .named, .implied .clc⟩,
    ⟨0x38#8, .imp, .named, .implied .sec⟩,
    ⟨0x58#8, .imp, .named, .implied .cli⟩,
    ⟨0x78#8, .imp, .named, .implied .sei⟩,
    ⟨0xB8#8, .imp, .named, .implied .clv⟩,
    ⟨0xD8#8, .imp, .named, .implied .cld⟩,
    ⟨0xF8#8, .imp, .named, .implied .sed⟩ ]

/-- No operation (46_nop_unknown.md R200). -/
def nopRows : List Row :=
  [ ⟨0xEA#8, .imp, .decision, .implied .nop⟩ ]

/-- The 61 rows of spec/opcode_table.json (30_encoding.md R85, R98), by family. -/
def opcodeTable : List Row :=
  loadRows ++ storeRows ++ compareRows ++ stackRows ++
    controlRows ++ transferRows ++ flagRows ++ nopRows

/-- 30_encoding.md R81: the row whose opcode equals the whole byte, or none (an unknown opcode, R99). -/
def lookupRow (op : Byte) : Option Row := opcodeTable.find? (fun r => r.opcode == op)

/-- Why bytes do not decode. -/
inductive DecodeError where
  /-- There is no byte at all. -/
  | empty
  /-- The opcode byte is one of the 195 unknown opcodes (30_encoding.md R99). -/
  | unknownOpcode (op : Byte)
  /-- The opcode is known, and operand bytes are missing. -/
  | truncated (op : Byte)
  deriving DecidableEq, Repr

/-- The operand bytes after the opcode (30_encoding.md R83, R94), and the bytes left. -/
def Build.fromBytes (op : Byte) : Build → List Byte → Except DecodeError (Instr × List Byte)
  | .implied i, rest => .ok (i, rest)
  | .byte f, b :: rest => .ok (f b, rest)
  | .word f, lo :: hi :: rest => .ok (f (concat16 hi lo), rest)
  | .byte _, [] => .error (.truncated op)
  | .word _, [] => .error (.truncated op)
  | .word _, [_] => .error (.truncated op)

/-- The decoder on any bytes: the instruction that stands first and the bytes after it, or a rejection by name. -/
def decode : List Byte → Except DecodeError (Instr × List Byte)
  | [] => .error .empty
  | op :: rest =>
    match lookupRow op with
    | none => .error (.unknownOpcode op)
    | some row => row.build.fromBytes op rest

/-- The bytes of a table word, first byte first: bit 0 is bit 0 of the first byte (spec/opcode_table.json's numbering), every
bit from `nbits` on is 0, up to the longest instruction (3 bytes, 30_encoding.md R82). -/
def tableWordBytes (nbits w : Nat) : List Byte :=
  [BitVec.ofNat 8 (w % 2 ^ nbits), BitVec.ofNat 8 (w % 2 ^ nbits / 0x100), BitVec.ofNat 8 (w % 2 ^ nbits / 0x10000)]

/-- The instruction the decoder reads from a table word; none where it refuses. -/
def decodeTableWord (nbits w : Nat) : Option Instr :=
  match decode (tableWordBytes nbits w) with
  | .ok (i, _) => some i
  | .error _ => none

/-! The encoder, and what the table says of an instruction, written from the spec's tables constructor by constructor. -/

/-- The opcode byte of an instruction (the "Encoding" lines of 40_load_store.md to 46_nop_unknown.md). -/
def Instr.opcode : Instr → Byte
  | .ldaImm _ => 0xA9#8
  | .ldaZp _ => 0xA5#8
  | .ldaZpx _ => 0xB5#8
  | .ldaAbs _ => 0xAD#8
  | .ldaAbsx _ => 0xBD#8
  | .ldaAbsy _ => 0xB9#8
  | .ldxImm _ => 0xA2#8
  | .ldxZp _ => 0xA6#8
  | .ldxAbs _ => 0xAE#8
  | .ldxAbsy _ => 0xBE#8
  | .ldyImm _ => 0xA0#8
  | .ldyZp _ => 0xA4#8
  | .ldyZpx _ => 0xB4#8
  | .ldyAbs _ => 0xAC#8
  | .ldyAbsx _ => 0xBC#8
  | .staZp _ => 0x85#8
  | .staZpx _ => 0x95#8
  | .staAbs _ => 0x8D#8
  | .staAbsx _ => 0x9D#8
  | .staAbsy _ => 0x99#8
  | .stxZp _ => 0x86#8
  | .stxAbs _ => 0x8E#8
  | .styZp _ => 0x84#8
  | .styZpx _ => 0x94#8
  | .styAbs _ => 0x8C#8
  | .cmpImm _ => 0xC9#8
  | .cmpZp _ => 0xC5#8
  | .cmpZpx _ => 0xD5#8
  | .cmpAbs _ => 0xCD#8
  | .cmpAbsx _ => 0xDD#8
  | .cmpAbsy _ => 0xD9#8
  | .cpxImm _ => 0xE0#8
  | .cpxZp _ => 0xE4#8
  | .cpxAbs _ => 0xEC#8
  | .cpyImm _ => 0xC0#8
  | .cpyZp _ => 0xC4#8
  | .cpyAbs _ => 0xCC#8
  | .pha => 0x48#8
  | .php => 0x08#8
  | .pla => 0x68#8
  | .plp => 0x28#8
  | .jmpAbs _ => 0x4C#8
  | .jmpInd _ => 0x6C#8
  | .jsrAbs _ => 0x20#8
  | .rts => 0x60#8
  | .tax => 0xAA#8
  | .txa => 0x8A#8
  | .tay => 0xA8#8
  | .tya => 0x98#8
  | .inx => 0xE8#8
  | .dex => 0xCA#8
  | .iny => 0xC8#8
  | .dey => 0x88#8
  | .clc => 0x18#8
  | .sec => 0x38#8
  | .cli => 0x58#8
  | .sei => 0x78#8
  | .clv => 0xB8#8
  | .cld => 0xD8#8
  | .sed => 0xF8#8
  | .nop => 0xEA#8

/-- The operand bytes after the opcode, low byte first (30_encoding.md R83, 20_memory.md R60). -/
def Instr.operandBytes : Instr → List Byte
  | .ldaImm v => [v]
  | .ldaZp z => [z]
  | .ldaZpx z => [z]
  | .ldaAbs w => [loByte w, hiByte w]
  | .ldaAbsx w => [loByte w, hiByte w]
  | .ldaAbsy w => [loByte w, hiByte w]
  | .ldxImm v => [v]
  | .ldxZp z => [z]
  | .ldxAbs w => [loByte w, hiByte w]
  | .ldxAbsy w => [loByte w, hiByte w]
  | .ldyImm v => [v]
  | .ldyZp z => [z]
  | .ldyZpx z => [z]
  | .ldyAbs w => [loByte w, hiByte w]
  | .ldyAbsx w => [loByte w, hiByte w]
  | .staZp z => [z]
  | .staZpx z => [z]
  | .staAbs w => [loByte w, hiByte w]
  | .staAbsx w => [loByte w, hiByte w]
  | .staAbsy w => [loByte w, hiByte w]
  | .stxZp z => [z]
  | .stxAbs w => [loByte w, hiByte w]
  | .styZp z => [z]
  | .styZpx z => [z]
  | .styAbs w => [loByte w, hiByte w]
  | .cmpImm v => [v]
  | .cmpZp z => [z]
  | .cmpZpx z => [z]
  | .cmpAbs w => [loByte w, hiByte w]
  | .cmpAbsx w => [loByte w, hiByte w]
  | .cmpAbsy w => [loByte w, hiByte w]
  | .cpxImm v => [v]
  | .cpxZp z => [z]
  | .cpxAbs w => [loByte w, hiByte w]
  | .cpyImm v => [v]
  | .cpyZp z => [z]
  | .cpyAbs w => [loByte w, hiByte w]
  | .pha => []
  | .php => []
  | .pla => []
  | .plp => []
  | .jmpAbs w => [loByte w, hiByte w]
  | .jmpInd w => [loByte w, hiByte w]
  | .jsrAbs w => [loByte w, hiByte w]
  | .rts => []
  | .tax => []
  | .txa => []
  | .tay => []
  | .tya => []
  | .inx => []
  | .dex => []
  | .iny => []
  | .dey => []
  | .clc => []
  | .sec => []
  | .cli => []
  | .sei => []
  | .clv => []
  | .cld => []
  | .sed => []
  | .nop => []

/-- The bytes of an instruction, the first at the lowest address. -/
def encode (i : Instr) : List Byte := i.opcode :: i.operandBytes

/-- The addressing mode of an instruction's row. -/
def Instr.mode : Instr → Mode
  | .ldaImm _ => .imm
  | .ldaZp _ => .zp
  | .ldaZpx _ => .zpx
  | .ldaAbs _ => .abs
  | .ldaAbsx _ => .absx
  | .ldaAbsy _ => .absy
  | .ldxImm _ => .imm
  | .ldxZp _ => .zp
  | .ldxAbs _ => .abs
  | .ldxAbsy _ => .absy
  | .ldyImm _ => .imm
  | .ldyZp _ => .zp
  | .ldyZpx _ => .zpx
  | .ldyAbs _ => .abs
  | .ldyAbsx _ => .absx
  | .staZp _ => .zp
  | .staZpx _ => .zpx
  | .staAbs _ => .abs
  | .staAbsx _ => .absx
  | .staAbsy _ => .absy
  | .stxZp _ => .zp
  | .stxAbs _ => .abs
  | .styZp _ => .zp
  | .styZpx _ => .zpx
  | .styAbs _ => .abs
  | .cmpImm _ => .imm
  | .cmpZp _ => .zp
  | .cmpZpx _ => .zpx
  | .cmpAbs _ => .abs
  | .cmpAbsx _ => .absx
  | .cmpAbsy _ => .absy
  | .cpxImm _ => .imm
  | .cpxZp _ => .zp
  | .cpxAbs _ => .abs
  | .cpyImm _ => .imm
  | .cpyZp _ => .zp
  | .cpyAbs _ => .abs
  | .pha => .imp
  | .php => .imp
  | .pla => .imp
  | .plp => .imp
  | .jmpAbs _ => .abs
  | .jmpInd _ => .ind
  | .jsrAbs _ => .abs
  | .rts => .imp
  | .tax => .imp
  | .txa => .imp
  | .tay => .imp
  | .tya => .imp
  | .inx => .imp
  | .dex => .imp
  | .iny => .imp
  | .dey => .imp
  | .clc => .imp
  | .sec => .imp
  | .cli => .imp
  | .sei => .imp
  | .clv => .imp
  | .cld => .imp
  | .sed => .imp
  | .nop => .imp

/-- The mnemonic of an instruction's row. -/
def Instr.mnemonic : Instr → Mnemonic
  | .ldaImm _ => .lda
  | .ldaZp _ => .lda
  | .ldaZpx _ => .lda
  | .ldaAbs _ => .lda
  | .ldaAbsx _ => .lda
  | .ldaAbsy _ => .lda
  | .ldxImm _ => .ldx
  | .ldxZp _ => .ldx
  | .ldxAbs _ => .ldx
  | .ldxAbsy _ => .ldx
  | .ldyImm _ => .ldy
  | .ldyZp _ => .ldy
  | .ldyZpx _ => .ldy
  | .ldyAbs _ => .ldy
  | .ldyAbsx _ => .ldy
  | .staZp _ => .sta
  | .staZpx _ => .sta
  | .staAbs _ => .sta
  | .staAbsx _ => .sta
  | .staAbsy _ => .sta
  | .stxZp _ => .stx
  | .stxAbs _ => .stx
  | .styZp _ => .sty
  | .styZpx _ => .sty
  | .styAbs _ => .sty
  | .cmpImm _ => .cmp
  | .cmpZp _ => .cmp
  | .cmpZpx _ => .cmp
  | .cmpAbs _ => .cmp
  | .cmpAbsx _ => .cmp
  | .cmpAbsy _ => .cmp
  | .cpxImm _ => .cpx
  | .cpxZp _ => .cpx
  | .cpxAbs _ => .cpx
  | .cpyImm _ => .cpy
  | .cpyZp _ => .cpy
  | .cpyAbs _ => .cpy
  | .pha => .pha
  | .php => .php
  | .pla => .pla
  | .plp => .plp
  | .jmpAbs _ => .jmp
  | .jmpInd _ => .jmp
  | .jsrAbs _ => .jsr
  | .rts => .rts
  | .tax => .tax
  | .txa => .txa
  | .tay => .tay
  | .tya => .tya
  | .inx => .inx
  | .dex => .dex
  | .iny => .iny
  | .dey => .dey
  | .clc => .clc
  | .sec => .sec
  | .cli => .cli
  | .sei => .sei
  | .clv => .clv
  | .cld => .cld
  | .sed => .sed
  | .nop => .nop

/-- The basis of an instruction's row (30_encoding.md R84): CMP immediate is named, NOP is a decision, every other load, store
and compare is a class row, and the rest are named. -/
def Instr.basis : Instr → Basis
  | .ldaImm _ => .byClass
  | .ldaZp _ => .byClass
  | .ldaZpx _ => .byClass
  | .ldaAbs _ => .byClass
  | .ldaAbsx _ => .byClass
  | .ldaAbsy _ => .byClass
  | .ldxImm _ => .byClass
  | .ldxZp _ => .byClass
  | .ldxAbs _ => .byClass
  | .ldxAbsy _ => .byClass
  | .ldyImm _ => .byClass
  | .ldyZp _ => .byClass
  | .ldyZpx _ => .byClass
  | .ldyAbs _ => .byClass
  | .ldyAbsx _ => .byClass
  | .staZp _ => .byClass
  | .staZpx _ => .byClass
  | .staAbs _ => .byClass
  | .staAbsx _ => .byClass
  | .staAbsy _ => .byClass
  | .stxZp _ => .byClass
  | .stxAbs _ => .byClass
  | .styZp _ => .byClass
  | .styZpx _ => .byClass
  | .styAbs _ => .byClass
  | .cmpImm _ => .named
  | .cmpZp _ => .byClass
  | .cmpZpx _ => .byClass
  | .cmpAbs _ => .byClass
  | .cmpAbsx _ => .byClass
  | .cmpAbsy _ => .byClass
  | .cpxImm _ => .byClass
  | .cpxZp _ => .byClass
  | .cpxAbs _ => .byClass
  | .cpyImm _ => .byClass
  | .cpyZp _ => .byClass
  | .cpyAbs _ => .byClass
  | .pha => .named
  | .php => .named
  | .pla => .named
  | .plp => .named
  | .jmpAbs _ => .named
  | .jmpInd _ => .named
  | .jsrAbs _ => .named
  | .rts => .named
  | .tax => .named
  | .txa => .named
  | .tay => .named
  | .tya => .named
  | .inx => .named
  | .dex => .named
  | .iny => .named
  | .dey => .named
  | .clc => .named
  | .sec => .named
  | .cli => .named
  | .sei => .named
  | .clv => .named
  | .cld => .named
  | .sed => .named
  | .nop => .decision

end Sys2Proof
end

