-- ==== Sys2Proof/Machine/Ram.lean ====
section
/-! DEFINITION. The bytes of one store, a RAM region's or a device's: a canonical list of cells over its initial contents. -/

namespace Sys2Proof.Machine

/-- The bytes of one RAM region, keyed by the region-local offset (20_memory.md R54, R57), or of a device's store: (offset, byte)
cells in ONE canonical form (`Memory.wf`). -/
abbrev Memory := List Host.Cell

/-- The listed byte at an offset, if one is listed. -/
def Memory.get? : Memory → Nat → Option Byte
  | [], _ => none
  | c :: rest, off => if c.1 = off then some c.2 else Memory.get? rest off

/-- The list with the byte at an offset, offsets kept in order. -/
def Memory.insert : Memory → Nat → Byte → Memory
  | [], off, v => [(off, v)]
  | c :: rest, off, v =>
    if off < c.1 then (off, v) :: c :: rest
    else if off = c.1 then (off, v) :: rest
    else c :: Memory.insert rest off v

/-- The list without an offset. -/
def Memory.erase (m : Memory) (off : Nat) : Memory := m.filter (fun c => c.1 != off)

/-- What an UNLISTED offset reads as (70_reset_and_hazards.md R243): the image's byte where RAM_INIT gives one; under `draw`, none:
the read then gives the free value `Config.ramDraw` (log 4, log 5). -/
def unlisted (init : RamInit) (off : Nat) : Option Byte :=
  match init with
  | .draw => none
  | .fixed fill image => some ((Memory.get? image off).getD fill)

/-- `mem[off] <- v` (20_memory.md R57). Writing the byte an unlisted offset reads as removes the cell. -/
def Memory.store (init : RamInit) (m : Memory) (off : Nat) (v : Byte) : Memory :=
  if unlisted init off = some v then Memory.erase m off else Memory.insert m off v

/-- `mem[off]` of the k-th region (20_memory.md R57): the listed byte, else what an unlisted offset reads as. -/
def ramByte (k : Nat) (init : RamInit) (m : Memory) (off : Nat) : Byte :=
  match Memory.get? m off with
  | some v => v
  | none => (unlisted init off).getD (Config.ramDraw k off)

/-- The canonical form: offsets strictly rising and inside the region, and no cell equal to what its offset reads
as unlisted. -/
def Memory.wf (init : RamInit) (size : Nat) (m : Memory) : Bool :=
  cellsRising m && m.all (fun c => decide (c.1 < size) && unlisted init c.1 != some c.2)

end Sys2Proof.Machine
end

