-- ==== Sys2Proof/Machine/Device.lean ====
section
/-! DEFINITION. What a device region does (20_memory.md R58): the byte it answers, as a function of the record of all it has
seen. A described device's store is what its handlers make of that record, event by event (log 31). -/

namespace Sys2Proof.Machine

/-- The address of an access. -/
def accessAddr : BusAccess → Word
  | .read a _ => a
  | .write a _ => a

end Sys2Proof.Machine

namespace Sys2Proof

open Sys2Proof.Machine

/-- The address of an event of a device region; a change of its own counts as one at the region's start. -/
def eventAddr (start : Word) : DeviceEvent → Word
  | .access acc => accessAddr acc
  | .change => start

/-- The byte an event moves; a change moves none. -/
def eventByte : DeviceEvent → Byte
  | .access (.read _ v) => v
  | .access (.write _ v) => v
  | .change => 0x00#8

/-- What an expression of a device can name besides the store: the region's number and the store's initial contents, the offset
of the access, the byte moved and the free byte of the event. -/
structure DeviceContext where
  k      : Nat
  init   : RamInit
  offset : Nat
  value  : Byte
  free   : Byte
  deriving DecidableEq, Repr

/-- An operation of a device's expressions. -/
def DeviceOp.apply : DeviceOp → Nat → Nat → Nat
  | .add, l, r => l + r
  | .sub, l, r => l - r
  | .mul, l, r => l * r
  | .div, l, r => l / r
  | .mod, l, r => l % r
  | .and, l, r => l &&& r
  | .or, l, r => l ||| r
  | .xor, l, r => l ^^^ r
  | .shl, l, r => l <<< r
  | .shr, l, r => l >>> r
  | .eq, l, r => if l = r then 1 else 0
  | .lt, l, r => if l < r then 1 else 0

/-- The value of a device's expression over its store. -/
def DeviceExpr.eval (c : DeviceContext) (m : Memory) : DeviceExpr → Nat
  | .lit n => n
  | .offset => c.offset
  | .value => c.value.toNat
  | .free => c.free.toNat
  | .byte index => (ramByte c.k c.init m (index.eval c m)).toNat
  | .bin op l r => op.apply (l.eval c m) (r.eval c m)
  | .cond b t e => if b.eval c m = 0 then e.eval c m else t.eval c m

/-- The store after a device's statement; a byte outside the store is not written. -/
def DeviceStmt.run (c : DeviceContext) (size : Nat) : DeviceStmt → Memory → Memory
  | .skip, m => m
  | .put index v, m =>
    if index.eval c m < size then Memory.store c.init m (index.eval c m) (BitVec.ofNat 8 (v.eval c m)) else m
  | .seq first second, m => second.run c size (first.run c size m)
  | .cond b t e, m => if b.eval c m = 0 then e.run c size m else t.run c size m
  | .loop count body, m => (body.run c size)^[count.eval c m] m

/-- What a device's description says to an event. -/
def DeviceProgram.handler (d : DeviceProgram) : DeviceEvent → DeviceStmt
  | .access (.read _ _) => d.onRead
  | .access (.write _ _) => d.onWrite
  | .change => d.onChange

/-- The context of an access or change of the k-th region, at an address and after the events of `past`. -/
def DeviceProgram.context (d : DeviceProgram) (k : Nat) (start : Word) (past : List DeviceEvent) (a : Word) (v : Byte) :
    DeviceContext :=
  { k := k, init := d.init, offset := a.toNat - start.toNat, value := v, free := Config.deviceRead k past a }

/-- The store after one more event. -/
def DeviceProgram.afterEvent (d : DeviceProgram) (k : Nat) (start : Word) (past : List DeviceEvent) (e : DeviceEvent) (m : Memory) :
    Memory :=
  (d.handler e).run (d.context k start past (eventAddr start e) (eventByte e)) d.size m

/-- The store after the events of `rest`, the events of `past` having gone before. -/
def DeviceProgram.replay (d : DeviceProgram) (k : Nat) (start : Word) : List DeviceEvent → List DeviceEvent → Memory → Memory
  | _, [], m => m
  | past, e :: rest, m => DeviceProgram.replay d k start (past ++ [e]) rest (d.afterEvent k start past e m)

/-- The store of the k-th region, a described device, after all it has seen; at construction nothing is written. -/
def DeviceProgram.contents (d : DeviceProgram) (k : Nat) (start : Word) (log : List DeviceEvent) : Memory :=
  d.replay k start [] log []

/-- The byte the k-th region, a device, answers to a read of a global address (20_memory.md R58): without a description the free value,
else what its description computes from the store as it stands before the read. -/
def DeviceBehaviour.answer (b : DeviceBehaviour) (k : Nat) (start : Word) (log : List DeviceEvent) (a : Word) : Byte :=
  match b with
  | .draw => Config.deviceRead k log a
  | .program d => BitVec.ofNat 8 (d.answer.eval (d.context k start log a 0x00#8) (d.contents k start log))

end Sys2Proof
end

