-- ==== Sys2Proof/Machine/Space.lean ====
section
/-! DEFINITION. The Address Space (20_memory.md): regions, and the first-match lookup that backs every read and every write. -/

namespace Sys2Proof.Machine

/-! Regions (20_memory.md R51 to R58). -/

/-- What a region is and holds: RAM its initial contents and its listed bytes, a device its behaviour and, as its state, the record of
what it has seen (20_memory.md R57, R58). -/
inductive RegionBody where
  | ram (init : RamInit) (mem : Memory)
  | device (behaviour : DeviceBehaviour) (log : List DeviceEvent)
  deriving DecidableEq, Repr

/-- One region of the Address Space with its contents (10_state.md R39, R41). -/
structure Region where
  start : Word
  size  : Nat
  body  : RegionBody
  deriving DecidableEq, Repr

/-- A region as power-on construction makes it (70_reset_and_hazards.md R242): RAM with nothing written, a device that has seen
nothing. -/
def constructRegion (r : RegionDecl) : Region :=
  { start := r.start
    size := r.size
    body := match r.kind with
      | .ram init => .ram init []
      | .device behaviour => .device behaviour [] }

/-- The fixed part of a region: its range and kind (20_memory.md R51: "immutable as a set thereafter"). -/
def Region.decl (r : Region) : RegionDecl :=
  { start := r.start
    size := r.size
    kind := match r.body with
      | .ram init _ => .ram init
      | .device behaviour _ => .device behaviour }

/-- 20_memory.md R52: `start <= address < start + size`, over unbounded integers. -/
def Region.inRange (r : Region) (a : Word) : Bool :=
  decide (r.start.toNat ≤ a.toNat) && decide (a.toNat < r.start.toNat + r.size)

/-- 20_memory.md R54: `address - regionStart`. -/
def Region.offset (r : Region) (a : Word) : Nat := a.toNat - r.start.toNat

/-- Is the region RAM? -/
def Region.isRam (r : Region) : Bool :=
  match r.body with
  | .ram _ _ => true
  | .device _ _ => false

/-- The byte the k-th region answers to a read of a global address (20_memory.md R57, R58). -/
def Region.byteAt (k : Nat) (r : Region) (a : Word) : Byte :=
  match r.body with
  | .ram init mem => ramByte k init mem (r.offset a)
  | .device behaviour log => behaviour.answer k r.start log a

/-- What an access does to the region that receives it: a RAM read nothing, a RAM write one byte (20_memory.md R57); a device
records either (20_memory.md R58). -/
def Region.accept (r : Region) (acc : BusAccess) : Region :=
  match r.body with
  | .ram init mem =>
    match acc with
    | .read _ _ => r
    | .write a v => { r with body := .ram init (Memory.store init mem (r.offset a) v) }
  | .device behaviour log => { r with body := .device behaviour (log ++ [.access acc]) }

/-- A device's own change between steps (20_memory.md R67); RAM has none. -/
def Region.change (r : Region) : Region :=
  match r.body with
  | .ram _ _ => r
  | .device behaviour log => { r with body := .device behaviour (log ++ [.change]) }

/-- The form of a region: RAM is canonical. -/
def Region.wf (r : Region) : Bool :=
  match r.body with
  | .ram init mem => Memory.wf init r.size mem
  | .device _ _ => true

/-! The lookup over the ordered list of regions. -/

/-- The open-bus value (20_memory.md R53). -/
def openBus : Byte := 0xFF#8

/-- The byte a read gives (20_memory.md R53): the first region in registration order whose range holds the address, or open bus.
The regions of the list are numbered from k. -/
def peekFrom : Nat → List Region → Word → Byte
  | _, [], _ => openBus
  | k, r :: rest, a => if r.inRange a then r.byteAt k a else peekFrom (k + 1) rest a

/-- What an access does to the Address Space (20_memory.md R53, R55): only the first region whose range holds the address receives
it; where none does, nothing happens (a write is dropped). -/
def deliver : List Region → BusAccess → List Region
  | [], _ => []
  | r :: rest, acc => if r.inRange (accessAddr acc) then r.accept acc :: rest else r :: deliver rest acc

/-- The region an address is decoded to (20_memory.md R53, R55, R59). -/
def regionAt (rs : List Region) (a : Word) : Option Region := rs.find? (fun r => r.inRange a)

end Sys2Proof.Machine
end

