-- ==== Sys2Proof/Machine/State.lean ====
section
/-! DEFINITION. The state of the machine as plain data (10_state.md R20, R39, R41), the reasons a step can stop, power-on
construction and the state after reset. -/

namespace Sys2Proof.Machine

/-- The state of CORE and its Address Space. -/
structure State where
  /-- A, the accumulator (10_state.md R21). -/
  a : Byte
  /-- X, index (10_state.md R22). -/
  x : Byte
  /-- Y, index (10_state.md R23). -/
  y : Byte
  /-- S, the stack pointer (10_state.md R24). -/
  sp : Byte
  /-- P, the status byte (10_state.md R26). -/
  p : Byte
  /-- PC (10_state.md R25). -/
  pc : Word
  /-- REGIONS in registration order, each with its contents (20_memory.md R51, 10_state.md R41). -/
  regions : List Region
  /-- The fault record: opcode and address (10_state.md R39, 46_nop_unknown.md R201). -/
  fault : Option (Byte × Word)
  /-- The refusal mark (10_state.md R39, 46_nop_unknown.md R201). -/
  refused : Bool
  /-- UNKNOWN_OPCODE_POLICY and CLASS_ROWS: parameters, read-only (log 2). -/
  cfg : Params
  /-- THE MODEL's OWN: the accesses of the latest step on the BUS port, oldest first (30_encoding.md R97; log 21). -/
  bus : List BusAccess
  deriving DecidableEq, Repr

/-- Why a step answers a fault. -/
inductive Fault where
  /-- Raised by a step requested while the fault record is set (46_nop_unknown.md R201, policy `fault`: "has no further step").
  Safe: a stop of the model, where the software under its default goes on. -/
  | unknownOpcode (op : Byte) (addr : Word)
  deriving DecidableEq, Repr

/-- Why a step answers a refusal. -/
inductive Refusal where
  /-- Raised by an arm of exec that has no meaning yet; no arm raises it. Safe. -/
  | notModelled (mnemonic : String)
  /-- Raised by a step requested while the refusal mark is set (46_nop_unknown.md R201, 30_encoding.md R84: "has no further step").
  Safe: it errs toward unprovable. -/
  | refusalMark
  deriving DecidableEq, Repr

/-- Power-on construction (10_state.md R42, 70_reset_and_hazards.md R242): every register zero, the regions as the host supplies
them, no mark. -/
def State.construct (c : Config) : State :=
  { a := 0x00#8, x := 0x00#8, y := 0x00#8, sp := 0x00#8, p := 0x00#8, pc := 0x0000#16
    regions := c.regions.map constructRegion
    fault := none, refused := false, cfg := c.params, bus := [] }

/-- The machine right after construction and one reset() in the configuration `Config.default` (70_reset_and_hazards.md R240,
R242): every register zero (10_state.md R42), PC from the vector. RAM is the zero image of log 4, so the vector reads
0x0000. `reset_eq_resetPort` (Laws/Ops.lean) says that this is `State.resetPort` of the constructed state. -/
def State.reset : State :=
  { a := 0x00#8, x := 0x00#8, y := 0x00#8, sp := 0x00#8, p := 0x00#8, pc := 0x0000#16
    regions := Config.default.regions.map constructRegion
    fault := none, refused := false, cfg := Config.default.params
    bus := [.read 0xFFFC#16 0x00#8, .read 0xFFFD#16 0x00#8] }

end Sys2Proof.Machine
end

