-- ==== Sys2Proof/Machine/Flags.lean ====
section
/-! DEFINITION. The status byte P: its layout, `get` and `set`, the NZ update, the compare rule and the rendered form
(10_state.md R26 to R32, 41_compare.md R140). -/

namespace Sys2Proof.Machine

/-- The six named flags (10_state.md R26). -/
inductive Flag where
  | c | z | i | d | v | n
  deriving DecidableEq, Repr

/-- Bit positions (10_state.md R26): C 0, Z 1, I 2, D 3, V 6, N 7. -/
def flagBit : Flag → Nat
  | .c => 0
  | .z => 1
  | .i => 2
  | .d => 3
  | .v => 6
  | .n => 7

/-- The byte with only the flag's bit set. -/
def flagMask (f : Flag) : Byte := 0x01#8 <<< flagBit f

/-- `get(flag)` (10_state.md R32). -/
def flagGet (p : Byte) (f : Flag) : Bool := p.getLsbD (flagBit f)

/-- `set(flag, bool)` (10_state.md R32): writes that bit of P and nothing else. -/
def flagSet (p : Byte) (f : Flag) (b : Bool) : Byte :=
  if b then p ||| flagMask f else p &&& ~~~ flagMask f

/-- SetNZ(v) (10_state.md R28): Z when v is zero, N from bit 7. -/
def nzUpdate (p v : Byte) : Byte := flagSet (flagSet p .z (v == 0x00#8)) .n (v.getLsbD 7)

/-- Compare(r, m) (41_compare.md R140): C when m <= r unsigned, then the NZ update of r itself (90_conflicts.md C1). -/
def compareFlags (p r m : Byte) : Byte := nzUpdate (flagSet p .c (decide (m.toNat ≤ r.toNat))) r

/-- The eight characters of `renderString()` (10_state.md R31), bit 7 first. -/
def renderChars (p : Byte) : List Char :=
  [ if flagGet p .n then 'N' else 'n',
    if flagGet p .v then 'V' else 'v',
    '-', '-',
    if flagGet p .d then 'D' else 'd',
    if flagGet p .i then 'I' else 'i',
    if flagGet p .z then 'Z' else 'z',
    if flagGet p .c then 'C' else 'c' ]

/-- `renderString()` (10_state.md R31). -/
def renderString (p : Byte) : String := String.ofList (renderChars p)

end Sys2Proof.Machine
end

