-- ==== Sys2Proof/Machine/Ops.lean ====
section
/-! DEFINITION. The named operations over registers, memory and the stack that every meaning is made of, the reset
operation, and the two model stops. CORE has no exception to take and none to return from (60_exceptions.md R210, R215, R216);
the model stops of 46_nop_unknown.md R201 stand in that place. -/

namespace Sys2Proof.Machine

/-! Register writes (10_state.md R20). -/

def State.setA (s : State) (v : Byte) : State := { s with a := v }

def State.setX (s : State) (v : Byte) : State := { s with x := v }

def State.setY (s : State) (v : Byte) : State := { s with y := v }

def State.setSp (s : State) (v : Byte) : State := { s with sp := v }

def State.setP (s : State) (v : Byte) : State := { s with p := v }

def State.setPc (s : State) (w : Word) : State := { s with pc := w }

/-- One flag of P (10_state.md R30, R32). -/
def State.setFlag (s : State) (f : Flag) (b : Bool) : State := s.setP (flagSet s.p f b)

/-- The NZ update on P (10_state.md R28). -/
def State.setNZ (s : State) (v : Byte) : State := s.setP (nzUpdate s.p v)

/-- The compare rule on P (41_compare.md R140). -/
def State.compare (s : State) (r m : Byte) : State := s.setP (compareFlags s.p r m)

/-- A register gets a value and the NZ update goes with it (10_state.md R28). -/
def State.loadA (s : State) (v : Byte) : State := (s.setA v).setNZ v

def State.loadX (s : State) (v : Byte) : State := (s.setX v).setNZ v

def State.loadY (s : State) (v : Byte) : State := (s.setY v).setNZ v

/-! Memory accesses of CORE (00_scope.md R12): one byte each, in the order they are written (20_memory.md R66). -/

/-- The byte a read of an address would give now; no access is made. -/
def State.peek (s : State) (a : Word) : Byte := peekFrom 0 s.regions a

/-- One access on the BUS port: the Address Space receives it, and the step's list of accesses grows by it. -/
def State.access (s : State) (acc : BusAccess) : State :=
  { s with regions := deliver s.regions acc, bus := s.bus ++ [acc] }

/-- `MemRead(a, 1)` (20_memory.md R53). -/
def State.memRead (s : State) (a : Word) : Byte × State := (s.peek a, s.access (.read a (s.peek a)))

/-- `MemWrite(a, 1, v)` (20_memory.md R55). -/
def State.memWrite (s : State) (a : Word) (v : Byte) : State := s.access (.write a v)

/-- The accesses of a new step start from none (log 21). -/
def State.clearBus (s : State) : State := { s with bus := [] }

/-! Instruction fetch (00_scope.md R13). -/

/-- `Fetch8()`: the byte at PC, and PC moved on by one modulo 2^16 (10_state.md R25). -/
def State.fetch8 (s : State) : Byte × State :=
  ((s.memRead s.pc).1, (s.memRead s.pc).2.setPc (s.pc + 1#16))

/-- `Fetch16()`: the low byte, then the high byte. -/
def State.fetch16 (s : State) : Word × State :=
  (concat16 s.fetch8.2.fetch8.1 s.fetch8.1, s.fetch8.2.fetch8.2)

/-! The stack (10_state.md R33 to R35). -/

/-- `0x0100 + S`: an address of page 1. -/
def stackAddr (sp : Byte) : Word := 0x0100#16 + zext16 sp

/-- `Push(v)` (10_state.md R33): store at 0x0100 + S, then decrement S modulo 2^8. -/
def State.push (s : State) (v : Byte) : State := (s.memWrite (stackAddr s.sp) v).setSp (s.sp - 1#8)

/-- `Pull()` (10_state.md R34): increment S modulo 2^8, then load from 0x0100 + S. -/
def State.pull (s : State) : Byte × State := (s.setSp (s.sp + 1#8)).memRead (stackAddr (s.sp + 1#8))

/-! Reset (70_reset_and_hazards.md R240, R241). -/

/-- `reset()`: the two vector reads, low byte first, and PC; no other register, and the marks stay. -/
def State.resetPort (s : State) : State :=
  let lo := s.clearBus.memRead 0xFFFC#16
  let hi := lo.2.memRead 0xFFFD#16
  hi.2.setPc (concat16 hi.1 lo.1)

/-! The model stops. -/

/-- `raise UnknownOpcode(op, addr)` (00_scope.md R14, 46_nop_unknown.md R201): the fault record is set, PC is the opcode's
address, nothing else changes. -/
def State.recordFault (s : State) (op : Byte) (addr : Word) : State := { s with fault := some (op, addr), pc := addr }

/-- The refusal mark is set, PC is the opcode's address, nothing else changes (46_nop_unknown.md R201, 30_encoding.md R84). -/
def State.markRefused (s : State) (addr : Word) : State := { s with refused := true, pc := addr }

/-- An unknown opcode, after its fetch (46_nop_unknown.md R201). Under `nop` the step ends there. -/
def State.unknownOpcode (s : State) (op : Byte) (addr : Word) : State :=
  match s.cfg.unknownOpcode with
  | .nop => s
  | .fault => s.recordFault op addr
  | .refuse => s.markRefused addr

end Sys2Proof.Machine
end

