-- ==== Sys2Proof/Machine/Operands.lean ====
section
/-! DEFINITION. Every addressing mode of 30_encoding.md R87 to R96: the effective address each yields from the operand bytes
already fetched, and the one data read that a load or compare makes at it (R90). -/

namespace Sys2Proof.Machine

/-- Zero-page (30_encoding.md R92): an address in 0x0000..0x00FF. -/
def eaZp (zp : Byte) : Word := zext16 zp

/-- Zero-page-indexed by X (30_encoding.md R93): the sum wraps within the zero page. -/
def eaZpx (s : State) (zp : Byte) : Word := zext16 (zp + s.x)

/-- Absolute (30_encoding.md R94): the operand itself. -/
def eaAbs (addr : Word) : Word := addr

/-- Absolute-indexed by X (30_encoding.md R95): modulo 2^16. -/
def eaAbsx (s : State) (addr : Word) : Word := addr + zext16 s.x

/-- Absolute-indexed by Y (30_encoding.md R95): modulo 2^16. -/
def eaAbsy (s : State) (addr : Word) : Word := addr + zext16 s.y

/-- Indirect (30_encoding.md R96): the low byte at the pointer, then the high byte at the pointer plus one modulo 2^16; no page bug
(90_conflicts.md C3). -/
def State.resolveInd (s : State) (ptr : Word) : Word × State :=
  let lo := s.memRead ptr
  let hi := lo.2.memRead (ptr + 1#16)
  (concat16 hi.1 lo.1, hi.2)

/-- A load or compare in a memory mode (30_encoding.md R90): one read at the effective address, and what is done with the byte. -/
def State.withOperand (s : State) (ea : Word) (f : State → Byte → State) : State :=
  f (s.memRead ea).2 (s.memRead ea).1

end Sys2Proof.Machine
end

