-- ==== Sys2Proof/Machine/Compare.lean ====
section
/-! DEFINITION. Compares (41_compare.md R140 to R143): C from the unsigned comparison, Z and N from the compared register. No
register is written. -/

namespace Sys2Proof.Machine

/-- 41_compare.md R141: CMP immediate. -/
def execCmpImm (value : Byte) (s : State) : Host.Outcome State Fault Refusal :=
  .next (s.compare s.a value)

/-- 41_compare.md R141: CMP zero-page. -/
def execCmpZp (zp : Byte) (s : State) : Host.Outcome State Fault Refusal :=
  .next (s.withOperand (eaZp zp) (fun t m => t.compare t.a m))

/-- 41_compare.md R141: CMP zero-page-indexed by X. -/
def execCmpZpx (zp : Byte) (s : State) : Host.Outcome State Fault Refusal :=
  .next (s.withOperand (eaZpx s zp) (fun t m => t.compare t.a m))

/-- 41_compare.md R141: CMP absolute. -/
def execCmpAbs (addr : Word) (s : State) : Host.Outcome State Fault Refusal :=
  .next (s.withOperand (eaAbs addr) (fun t m => t.compare t.a m))

/-- 41_compare.md R141: CMP absolute-indexed by X. -/
def execCmpAbsx (addr : Word) (s : State) : Host.Outcome State Fault Refusal :=
  .next (s.withOperand (eaAbsx s addr) (fun t m => t.compare t.a m))

/-- 41_compare.md R141: CMP absolute-indexed by Y. -/
def execCmpAbsy (addr : Word) (s : State) : Host.Outcome State Fault Refusal :=
  .next (s.withOperand (eaAbsy s addr) (fun t m => t.compare t.a m))

/-- 41_compare.md R142: CPX immediate. -/
def execCpxImm (value : Byte) (s : State) : Host.Outcome State Fault Refusal :=
  .next (s.compare s.x value)

/-- 41_compare.md R142: CPX zero-page. -/
def execCpxZp (zp : Byte) (s : State) : Host.Outcome State Fault Refusal :=
  .next (s.withOperand (eaZp zp) (fun t m => t.compare t.x m))

/-- 41_compare.md R142: CPX absolute. -/
def execCpxAbs (addr : Word) (s : State) : Host.Outcome State Fault Refusal :=
  .next (s.withOperand (eaAbs addr) (fun t m => t.compare t.x m))

/-- 41_compare.md R143: CPY immediate. -/
def execCpyImm (value : Byte) (s : State) : Host.Outcome State Fault Refusal :=
  .next (s.compare s.y value)

/-- 41_compare.md R143: CPY zero-page. -/
def execCpyZp (zp : Byte) (s : State) : Host.Outcome State Fault Refusal :=
  .next (s.withOperand (eaZp zp) (fun t m => t.compare t.y m))

/-- 41_compare.md R143: CPY absolute. -/
def execCpyAbs (addr : Word) (s : State) : Host.Outcome State Fault Refusal :=
  .next (s.withOperand (eaAbs addr) (fun t m => t.compare t.y m))

end Sys2Proof.Machine
end

