-- ==== Sys2Proof/Machine/Control.lean ====
section
/-! DEFINITION. Control transfer (43_control.md R170 to R174). PC already stands after the instruction's bytes (log 1). -/

namespace Sys2Proof.Machine

/-- 43_control.md R172: the return address is PC - 1, the last byte of the JSR; its high byte is pushed first. -/
def State.pushReturn (s : State) : State := (s.push (hiByte (s.pc - 1#16))).push (loByte (s.pc - 1#16))

/-- 43_control.md R173: the pulled address, low byte first, and the state after both pulls. -/
def State.pullReturn (s : State) : Word × State := (concat16 s.pull.2.pull.1 s.pull.1, s.pull.2.pull.2)

/-- 43_control.md R170: absolute jump; no access at the target. -/
def execJmpAbs (addr : Word) (s : State) : Host.Outcome State Fault Refusal :=
  .next (s.setPc (eaAbs addr))

/-- 43_control.md R171: indirect jump. -/
def execJmpInd (addr : Word) (s : State) : Host.Outcome State Fault Refusal :=
  .next ((s.resolveInd addr).2.setPc (s.resolveInd addr).1)

/-- 43_control.md R172: subroutine call. -/
def execJsrAbs (addr : Word) (s : State) : Host.Outcome State Fault Refusal :=
  .next (s.pushReturn.setPc (eaAbs addr))

/-- 43_control.md R173: return from subroutine, to the pulled address plus one modulo 2^16. -/
def execRts (s : State) : Host.Outcome State Fault Refusal :=
  .next (s.pullReturn.2.setPc (s.pullReturn.1 + 1#16))

end Sys2Proof.Machine
end

