-- ==== Sys2Proof/Machine/FlagOps.lean ====
section
/-! DEFINITION. Flag set and clear (45_flags.md R190 to R197): one bit of P, nothing else. -/

namespace Sys2Proof.Machine

/-- 45_flags.md R190: clear carry. -/
def execClc (s : State) : Host.Outcome State Fault Refusal :=
  .next (s.setFlag .c false)

/-- 45_flags.md R191: set carry. -/
def execSec (s : State) : Host.Outcome State Fault Refusal :=
  .next (s.setFlag .c true)

/-- 45_flags.md R192: clear interrupt-disable (it masks nothing, 60_exceptions.md R212). -/
def execCli (s : State) : Host.Outcome State Fault Refusal :=
  .next (s.setFlag .i false)

/-- 45_flags.md R193: set interrupt-disable. -/
def execSei (s : State) : Host.Outcome State Fault Refusal :=
  .next (s.setFlag .i true)

/-- 45_flags.md R194: clear overflow. -/
def execClv (s : State) : Host.Outcome State Fault Refusal :=
  .next (s.setFlag .v false)

/-- 45_flags.md R195: clear decimal. -/
def execCld (s : State) : Host.Outcome State Fault Refusal :=
  .next (s.setFlag .d false)

/-- 45_flags.md R196: set decimal. -/
def execSed (s : State) : Host.Outcome State Fault Refusal :=
  .next (s.setFlag .d true)

end Sys2Proof.Machine
end

