-- ==== Sys2Proof/Machine/LoadStore.lean ====
section
/-! DEFINITION. Loads and stores (40_load_store.md R110 to R116). A load writes its register and applies the NZ update; a
store makes one write at its effective address and changes no register and no flag. -/

namespace Sys2Proof.Machine

/-- 40_load_store.md R111: LDA immediate. -/
def execLdaImm (value : Byte) (s : State) : Host.Outcome State Fault Refusal :=
  .next (s.loadA value)

/-- 40_load_store.md R111: LDA zero-page. -/
def execLdaZp (zp : Byte) (s : State) : Host.Outcome State Fault Refusal :=
  .next (s.withOperand (eaZp zp) State.loadA)

/-- 40_load_store.md R111: LDA zero-page-indexed by X. -/
def execLdaZpx (zp : Byte) (s : State) : Host.Outcome State Fault Refusal :=
  .next (s.withOperand (eaZpx s zp) State.loadA)

/-- 40_load_store.md R111: LDA absolute. -/
def execLdaAbs (addr : Word) (s : State) : Host.Outcome State Fault Refusal :=
  .next (s.withOperand (eaAbs addr) State.loadA)

/-- 40_load_store.md R111: LDA absolute-indexed by X. -/
def execLdaAbsx (addr : Word) (s : State) : Host.Outcome State Fault Refusal :=
  .next (s.withOperand (eaAbsx s addr) State.loadA)

/-- 40_load_store.md R111: LDA absolute-indexed by Y. -/
def execLdaAbsy (addr : Word) (s : State) : Host.Outcome State Fault Refusal :=
  .next (s.withOperand (eaAbsy s addr) State.loadA)

/-- 40_load_store.md R112: LDX immediate. -/
def execLdxImm (value : Byte) (s : State) : Host.Outcome State Fault Refusal :=
  .next (s.loadX value)

/-- 40_load_store.md R112: LDX zero-page. -/
def execLdxZp (zp : Byte) (s : State) : Host.Outcome State Fault Refusal :=
  .next (s.withOperand (eaZp zp) State.loadX)

/-- 40_load_store.md R112: LDX absolute. -/
def execLdxAbs (addr : Word) (s : State) : Host.Outcome State Fault Refusal :=
  .next (s.withOperand (eaAbs addr) State.loadX)

/-- 40_load_store.md R112: LDX absolute-indexed by Y. -/
def execLdxAbsy (addr : Word) (s : State) : Host.Outcome State Fault Refusal :=
  .next (s.withOperand (eaAbsy s addr) State.loadX)

/-- 40_load_store.md R113: LDY immediate. -/
def execLdyImm (value : Byte) (s : State) : Host.Outcome State Fault Refusal :=
  .next (s.loadY value)

/-- 40_load_store.md R113: LDY zero-page. -/
def execLdyZp (zp : Byte) (s : State) : Host.Outcome State Fault Refusal :=
  .next (s.withOperand (eaZp zp) State.loadY)

/-- 40_load_store.md R113: LDY zero-page-indexed by X. -/
def execLdyZpx (zp : Byte) (s : State) : Host.Outcome State Fault Refusal :=
  .next (s.withOperand (eaZpx s zp) State.loadY)

/-- 40_load_store.md R113: LDY absolute. -/
def execLdyAbs (addr : Word) (s : State) : Host.Outcome State Fault Refusal :=
  .next (s.withOperand (eaAbs addr) State.loadY)

/-- 40_load_store.md R113: LDY absolute-indexed by X. -/
def execLdyAbsx (addr : Word) (s : State) : Host.Outcome State Fault Refusal :=
  .next (s.withOperand (eaAbsx s addr) State.loadY)

/-- 40_load_store.md R114: STA zero-page. -/
def execStaZp (zp : Byte) (s : State) : Host.Outcome State Fault Refusal :=
  .next (s.memWrite (eaZp zp) s.a)

/-- 40_load_store.md R114: STA zero-page-indexed by X. -/
def execStaZpx (zp : Byte) (s : State) : Host.Outcome State Fault Refusal :=
  .next (s.memWrite (eaZpx s zp) s.a)

/-- 40_load_store.md R114: STA absolute. -/
def execStaAbs (addr : Word) (s : State) : Host.Outcome State Fault Refusal :=
  .next (s.memWrite (eaAbs addr) s.a)

/-- 40_load_store.md R114: STA absolute-indexed by X. -/
def execStaAbsx (addr : Word) (s : State) : Host.Outcome State Fault Refusal :=
  .next (s.memWrite (eaAbsx s addr) s.a)

/-- 40_load_store.md R114: STA absolute-indexed by Y. -/
def execStaAbsy (addr : Word) (s : State) : Host.Outcome State Fault Refusal :=
  .next (s.memWrite (eaAbsy s addr) s.a)

/-- 40_load_store.md R115: STX zero-page. -/
def execStxZp (zp : Byte) (s : State) : Host.Outcome State Fault Refusal :=
  .next (s.memWrite (eaZp zp) s.x)

/-- 40_load_store.md R115: STX absolute. -/
def execStxAbs (addr : Word) (s : State) : Host.Outcome State Fault Refusal :=
  .next (s.memWrite (eaAbs addr) s.x)

/-- 40_load_store.md R116: STY zero-page. -/
def execStyZp (zp : Byte) (s : State) : Host.Outcome State Fault Refusal :=
  .next (s.memWrite (eaZp zp) s.y)

/-- 40_load_store.md R116: STY zero-page-indexed by X. -/
def execStyZpx (zp : Byte) (s : State) : Host.Outcome State Fault Refusal :=
  .next (s.memWrite (eaZpx s zp) s.y)

/-- 40_load_store.md R116: STY absolute. -/
def execStyAbs (addr : Word) (s : State) : Host.Outcome State Fault Refusal :=
  .next (s.memWrite (eaAbs addr) s.y)

end Sys2Proof.Machine
end

