-- ==== Sys2Proof/Machine/Nop.lean ====
section
/-! DEFINITION. NOP (46_nop_unknown.md R200). -/

namespace Sys2Proof.Machine

/-- 46_nop_unknown.md R200: nothing; PC already stands after the opcode. -/
def execNop (s : State) : Host.Outcome State Fault Refusal :=
  .next s

end Sys2Proof.Machine
end

