-- ==== Sys2Proof/Machine/Stack.lean ====
section
/-! DEFINITION. Stack instructions (42_stack.md R160 to R163). -/

namespace Sys2Proof.Machine

/-- 42_stack.md R160: push accumulator, no flag. -/
def execPha (s : State) : Host.Outcome State Fault Refusal :=
  .next (s.push s.a)

/-- 42_stack.md R161: push the whole status byte verbatim (90_conflicts.md C2). -/
def execPhp (s : State) : Host.Outcome State Fault Refusal :=
  .next (s.push s.p)

/-- 42_stack.md R162: pull accumulator, with the NZ update. -/
def execPla (s : State) : Host.Outcome State Fault Refusal :=
  .next (s.pull.2.loadA s.pull.1)

/-- 42_stack.md R163: pull the whole status byte verbatim, no NZ update (90_conflicts.md C7). -/
def execPlp (s : State) : Host.Outcome State Fault Refusal :=
  .next (s.pull.2.setP s.pull.1)

end Sys2Proof.Machine
end

