-- ==== Sys2Proof/Machine/Transfer.lean ====
section
/-! DEFINITION. Register transfers, increments and decrements (44_transfer_incdec.md R180 to R188): 8-bit wraparound, the NZ update
of the destination, no other flag. -/

namespace Sys2Proof.Machine

/-- 44_transfer_incdec.md R180: X <- A. -/
def execTax (s : State) : Host.Outcome State Fault Refusal :=
  .next (s.loadX s.a)

/-- 44_transfer_incdec.md R181: A <- X. -/
def execTxa (s : State) : Host.Outcome State Fault Refusal :=
  .next (s.loadA s.x)

/-- 44_transfer_incdec.md R182: Y <- A. -/
def execTay (s : State) : Host.Outcome State Fault Refusal :=
  .next (s.loadY s.a)

/-- 44_transfer_incdec.md R183: A <- Y. -/
def execTya (s : State) : Host.Outcome State Fault Refusal :=
  .next (s.loadA s.y)

/-- 44_transfer_incdec.md R184: X <- (X + 1) mod 2^8. -/
def execInx (s : State) : Host.Outcome State Fault Refusal :=
  .next (s.loadX (s.x + 1#8))

/-- 44_transfer_incdec.md R185: X <- (X - 1) mod 2^8. -/
def execDex (s : State) : Host.Outcome State Fault Refusal :=
  .next (s.loadX (s.x - 1#8))

/-- 44_transfer_incdec.md R186: Y <- (Y + 1) mod 2^8. -/
def execIny (s : State) : Host.Outcome State Fault Refusal :=
  .next (s.loadY (s.y + 1#8))

/-- 44_transfer_incdec.md R187: Y <- (Y - 1) mod 2^8. -/
def execDey (s : State) : Host.Outcome State Fault Refusal :=
  .next (s.loadY (s.y - 1#8))

end Sys2Proof.Machine
end

