-- ==== Sys2Proof/Machine/Dispatch.lean ====
section
/-! DEFINITION. exec: one arm per constructor of Instr, each one direct call of its meaning. The state exec is given is the
one after phases 1 and 3 of 30_encoding.md R80 have fetched the instruction's bytes (log 1). -/

namespace Sys2Proof.Machine

def exec (i : Instr) (s : State) : Host.Outcome State Fault Refusal :=
  match i with
  -- Loads (40_load_store.md R111 to R113)
  | .ldaImm value => Sys2Proof.Machine.execLdaImm value s
  | .ldaZp zp => Sys2Proof.Machine.execLdaZp zp s
  | .ldaZpx zp => Sys2Proof.Machine.execLdaZpx zp s
  | .ldaAbs addr => Sys2Proof.Machine.execLdaAbs addr s
  | .ldaAbsx addr => Sys2Proof.Machine.execLdaAbsx addr s
  | .ldaAbsy addr => Sys2Proof.Machine.execLdaAbsy addr s
  | .ldxImm value => Sys2Proof.Machine.execLdxImm value s
  | .ldxZp zp => Sys2Proof.Machine.execLdxZp zp s
  | .ldxAbs addr => Sys2Proof.Machine.execLdxAbs addr s
  | .ldxAbsy addr => Sys2Proof.Machine.execLdxAbsy addr s
  | .ldyImm value => Sys2Proof.Machine.execLdyImm value s
  | .ldyZp zp => Sys2Proof.Machine.execLdyZp zp s
  | .ldyZpx zp => Sys2Proof.Machine.execLdyZpx zp s
  | .ldyAbs addr => Sys2Proof.Machine.execLdyAbs addr s
  | .ldyAbsx addr => Sys2Proof.Machine.execLdyAbsx addr s
  -- Stores (40_load_store.md R114 to R116)
  | .staZp zp => Sys2Proof.Machine.execStaZp zp s
  | .staZpx zp => Sys2Proof.Machine.execStaZpx zp s
  | .staAbs addr => Sys2Proof.Machine.execStaAbs addr s
  | .staAbsx addr => Sys2Proof.Machine.execStaAbsx addr s
  | .staAbsy addr => Sys2Proof.Machine.execStaAbsy addr s
  | .stxZp zp => Sys2Proof.Machine.execStxZp zp s
  | .stxAbs addr => Sys2Proof.Machine.execStxAbs addr s
  | .styZp zp => Sys2Proof.Machine.execStyZp zp s
  | .styZpx zp => Sys2Proof.Machine.execStyZpx zp s
  | .styAbs addr => Sys2Proof.Machine.execStyAbs addr s
  -- Compares (41_compare.md R141 to R143)
  | .cmpImm value => Sys2Proof.Machine.execCmpImm value s
  | .cmpZp zp => Sys2Proof.Machine.execCmpZp zp s
  | .cmpZpx zp => Sys2Proof.Machine.execCmpZpx zp s
  | .cmpAbs addr => Sys2Proof.Machine.execCmpAbs addr s
  | .cmpAbsx addr => Sys2Proof.Machine.execCmpAbsx addr s
  | .cmpAbsy addr => Sys2Proof.Machine.execCmpAbsy addr s
  | .cpxImm value => Sys2Proof.Machine.execCpxImm value s
  | .cpxZp zp => Sys2Proof.Machine.execCpxZp zp s
  | .cpxAbs addr => Sys2Proof.Machine.execCpxAbs addr s
  | .cpyImm value => Sys2Proof.Machine.execCpyImm value s
  | .cpyZp zp => Sys2Proof.Machine.execCpyZp zp s
  | .cpyAbs addr => Sys2Proof.Machine.execCpyAbs addr s
  -- Stack (42_stack.md R160 to R163)
  | .pha => Sys2Proof.Machine.execPha s
  | .php => Sys2Proof.Machine.execPhp s
  | .pla => Sys2Proof.Machine.execPla s
  | .plp => Sys2Proof.Machine.execPlp s
  -- Control transfer (43_control.md R170 to R173)
  | .jmpAbs addr => Sys2Proof.Machine.execJmpAbs addr s
  | .jmpInd addr => Sys2Proof.Machine.execJmpInd addr s
  | .jsrAbs addr => Sys2Proof.Machine.execJsrAbs addr s
  | .rts => Sys2Proof.Machine.execRts s
  -- Transfers, increments, decrements (44_transfer_incdec.md R180 to R187)
  | .tax => Sys2Proof.Machine.execTax s
  | .txa => Sys2Proof.Machine.execTxa s
  | .tay => Sys2Proof.Machine.execTay s
  | .tya => Sys2Proof.Machine.execTya s
  | .inx => Sys2Proof.Machine.execInx s
  | .dex => Sys2Proof.Machine.execDex s
  | .iny => Sys2Proof.Machine.execIny s
  | .dey => Sys2Proof.Machine.execDey s
  -- Flags (45_flags.md R190 to R196)
  | .clc => Sys2Proof.Machine.execClc s
  | .sec => Sys2Proof.Machine.execSec s
  | .cli => Sys2Proof.Machine.execCli s
  | .sei => Sys2Proof.Machine.execSei s
  | .clv => Sys2Proof.Machine.execClv s
  | .cld => Sys2Proof.Machine.execCld s
  | .sed => Sys2Proof.Machine.execSed s
  -- No operation (46_nop_unknown.md R200)
  | .nop => Sys2Proof.Machine.execNop s

end Sys2Proof.Machine
end

