-- ==== Sys2Proof/Machine/Cycle.lean ====
section
/-! DEFINITION. One request on the STEP port (30_encoding.md R80): fetch, decode, operand fetch, execute. -/

namespace Sys2Proof.Machine

/-- The operand bytes of a row, fetched at PC in order (30_encoding.md R80 phase 3, R89 to R96), and the instruction they complete. -/
def State.fetchOperand (s : State) : Build → Instr × State
  | .implied i => (i, s)
  | .byte f => (f s.fetch8.1, s.fetch8.2)
  | .word f => (f s.fetch16.1, s.fetch16.2)

/-- 30_encoding.md R84: a class row under CLASS_ROWS = refuse. -/
def classRefused (cfg : Params) (b : Basis) : Bool := b == .byClass && cfg.classRows == .refuse

/-- What follows the opcode fetch, for a row of the table: `opaddr` is the opcode's address (30_encoding.md R80). -/
def State.runRow (s : State) (row : Row) (opaddr : Word) : Host.Outcome State Fault Refusal :=
  if classRefused s.cfg row.basis then .next (s.markRefused opaddr)
  else exec (s.fetchOperand row.build).1 (s.fetchOperand row.build).2

/-- What follows the opcode fetch: the row's instruction, or the unknown-opcode policy. -/
def State.runOpcode (s : State) (op : Byte) (opaddr : Word) : Host.Outcome State Fault Refusal :=
  match lookupRow op with
  | none => .next (s.unknownOpcode op opaddr)
  | some row => s.runRow row opaddr

/-- `step()` (30_encoding.md R80): no step while a mark is set; else one instruction. -/
def State.runStep (s : State) : Host.Outcome State Fault Refusal :=
  match s.fault with
  | some record => .fault (.unknownOpcode record.1 record.2)
  | none =>
    if s.refused then .refused .refusalMark
    else s.clearBus.fetch8.2.runOpcode s.clearBus.fetch8.1 s.pc

end Sys2Proof.Machine
end

