-- ==== Sys2Proof/Machine/HostPorts.lean ====
section
/-! DEFINITION. The host's ports (10_state.md R36): HOSTBUS, REG, TRACE, device changes between steps, and the boot sequence.
None of them is part of a step; each acts between steps (10_state.md R38). -/

namespace Sys2Proof.Machine

/-! HOSTBUS (20_memory.md R56). These accesses are the host's, so `bus`, CORE's own port, does not list them. -/

/-- The host's `read(address)`. -/
def State.hostRead (s : State) (a : Word) : Byte × State :=
  (s.peek a, { s with regions := deliver s.regions (.read a (s.peek a)) })

/-- The host's write of one byte. -/
def State.hostWriteByte (s : State) (a : Word) (v : Byte) : State :=
  { s with regions := deliver s.regions (.write a v) }

/-- The host's `write(address, bytes...)`: byte i at (address + i) mod 2^16, each byte's region looked up anew. -/
def State.hostWrite (s : State) : Word → List Byte → State
  | _, [] => s
  | a, b :: rest => (s.hostWriteByte a b).hostWrite (a + 1#16) rest

/-- A device region changes its own state between steps (20_memory.md R67): the k-th region records it. -/
def State.deviceChange (s : State) (k : Nat) : State := { s with regions := s.regions.modify k Region.change }

/-! REG (10_state.md R37). -/

/-- What the port names. -/
inductive RegName where
  | a | x | y | s | p | pc
  | flag (f : Flag)
  deriving DecidableEq, Repr

/-- What the port answers. -/
inductive RegValue where
  | byte (v : Byte)
  | word (w : Word)
  | bit (b : Bool)
  deriving DecidableEq, Repr

/-- What the port writes: a register or a flag with its value. -/
inductive RegWrite where
  | a (v : Byte) | x (v : Byte) | y (v : Byte) | s (v : Byte) | p (v : Byte) | pc (w : Word)
  | flag (f : Flag) (b : Bool)
  deriving DecidableEq, Repr

/-- A read through the port. -/
def State.regRead (s : State) : RegName → RegValue
  | .a => .byte s.a
  | .x => .byte s.x
  | .y => .byte s.y
  | .s => .byte s.sp
  | .p => .byte s.p
  | .pc => .word s.pc
  | .flag f => .bit (flagGet s.p f)

/-- A write through the port. -/
def State.regWrite (s : State) : RegWrite → State
  | .a v => s.setA v
  | .x v => s.setX v
  | .y v => s.setY v
  | .s v => s.setSp v
  | .p v => s.setP v
  | .pc w => s.setPc w
  | .flag f b => s.setFlag f b

/-! TRACE (60_exceptions.md R226). -/

/-- What the port carries after a completed step. -/
structure TraceRecord where
  a : Byte
  x : Byte
  y : Byte
  s : Byte
  pc : Word
  p : Byte
  deriving DecidableEq, Repr

/-- The TRACE output of a state. -/
def State.trace (s : State) : TraceRecord := { a := s.a, x := s.x, y := s.y, s := s.sp, pc := s.pc, p := s.p }

/-! Boot (70_reset_and_hazards.md R244). -/

/-- Program and vector bytes written by the host, in order. -/
def State.hostLoad (s : State) : List (Word × List Byte) → State
  | [] => s
  | seg :: rest => (s.hostWrite seg.1 seg.2).hostLoad rest

/-- Register writes by the host, in order. -/
def State.hostRegs (s : State) : List RegWrite → State
  | [] => s
  | w :: rest => (s.regWrite w).hostRegs rest

/-- The sequence of 70_reset_and_hazards.md R244, steps 1 to 5: construct, write the program and the vector, set registers, reset(). -/
def State.boot (c : Config) (image : List (Word × List Byte)) (regs : List RegWrite) : State :=
  (((State.construct c).hostLoad image).hostRegs regs).resetPort

end Sys2Proof.Machine
end

