-- ==== Sys2Proof/Machine/Step.lean ====
section
/-! DEFINITION. step, and the placing of one instruction where step fetches next. -/

namespace Sys2Proof.Machine

/-- One request on the STEP port (30_encoding.md R80). -/
def step (s : State) : Host.Outcome State Fault Refusal := s.runStep

/-- The bytes of a table word written through HOSTBUS at PC, where step fetches its next instruction (log 24). -/
def State.withFetchWord (s : State) (nbits w : Nat) : State := s.hostWrite s.pc (tableWordBytes nbits w)

end Sys2Proof.Machine
end

