-- ==== Sys2Proof/Safety.lean ====
section
/-! DEFINITION. The terms the claims use: when a step can be taken, what a region is at an address, the end of a run,
the invariants, and the bits an NZ update, a compare or a flag instruction leaves in P, each written from the spec's text and
not from the machine's operations. -/

namespace Sys2Proof.Machine

/-- No mark is set, so a STEP request runs an instruction (10_state.md R39, 30_encoding.md R80). -/
def State.running (s : State) : Bool := s.fault.isNone && !s.refused

/-- RAM answers at the address. -/
def State.ramAt (s : State) (a : Word) : Bool := (regionAt s.regions a).any Region.isRam

/-- A device answers at the address. -/
def State.deviceAt (s : State) (a : Word) : Bool := (regionAt s.regions a).any (fun r => !r.isRam)

/-- No region holds the address: open bus (20_memory.md R53). -/
def State.unmappedAt (s : State) (a : Word) : Bool := (regionAt s.regions a).isNone

/-- Every RAM region is in canonical form. -/
def State.memWf (s : State) : Bool := s.regions.all Region.wf

/-- The fixed part of the Address Space (20_memory.md R51). -/
def State.decls (s : State) : List RegionDecl := s.regions.map Region.decl

/-- The n bytes a step fetches at PC, in order, and the state after those reads (30_encoding.md R80, R97): each byte is read at PC,
and PC moves on by one modulo 2^16. -/
def State.fetchBytes : Nat → State → List Byte × State
  | 0, s => ([], s)
  | n + 1, s =>
    let next := State.fetchBytes n { s.access (.read s.pc (s.peek s.pc)) with pc := s.pc + 1#16 }
    (s.peek s.pc :: next.1, next.2)

/-- The halt idiom (70_reset_and_hazards.md R246): the next instruction is the JMP abs to its own address, read from RAM. -/
def State.atHalt (s : State) : Bool :=
  s.ramAt s.pc && s.ramAt (s.pc + 1#16) && s.ramAt (s.pc + 2#16) &&
    s.peek s.pc == 0x4C#8 && s.peek (s.pc + 1#16) == loByte s.pc && s.peek (s.pc + 2#16) == hiByte s.pc

/-- The end of a run (70_reset_and_hazards.md R246): the halt idiom, or a mark; only the first is a normal end. -/
def State.runEnded (s : State) : Bool := s.atHalt || !s.running

/-- An instruction's row and its fetch: its bytes are `bytes`, and a step that fetches them at PC runs the instruction in the state
after those reads (30_encoding.md R80). CLASS_ROWS = refuse keeps a class row from running (30_encoding.md R84). -/
def RunsFrom (bytes : List Byte) (i : Instr) : Prop :=
  encode i = bytes ∧
  ∀ s : State, s.running = true → (i.basis = .byClass → s.cfg.classRows = .execute) →
    (State.fetchBytes bytes.length s.clearBus).1 = bytes →
    step s = exec i (State.fetchBytes bytes.length s.clearBus).2

/-- `p'` is `p` after SetNZ(v) (10_state.md R28): bit 1 says whether v is zero, bit 7 is bit 7 of v, the others stay. -/
def NzBits (v p p' : Byte) : Prop :=
  ∀ k, k < 8 → p'.getLsbD k = if k = 1 then v == 0#8 else if k = 7 then v.getLsbD 7 else p.getLsbD k

/-- `p'` is `p` after Compare(r, m) (41_compare.md R140): bit 0 says whether m <= r unsigned, bits 1 and 7 are the NZ update of r, the
others stay. -/
def CompareBits (r m p p' : Byte) : Prop :=
  ∀ k, k < 8 → p'.getLsbD k =
    if k = 0 then decide (m.toNat ≤ r.toNat) else if k = 1 then r == 0#8 else if k = 7 then r.getLsbD 7 else p.getLsbD k

/-- `p'` is `p` with bit n set to b (45_flags.md R197). -/
def OneBit (n : Nat) (b : Bool) (p p' : Byte) : Prop := ∀ k, k < 8 → p'.getLsbD k = if k = n then b else p.getLsbD k

/-- Every byte of RAM and of open bus outside the stored addresses reads in t as in s. (What a device would answer next
may depend on what it has seen; `regions` says that.) -/
def BytesKept (s t : State) (stored : List Word) : Prop :=
  ∀ a : Word, a ∉ stored → s.deviceAt a = false → t.peek a = s.peek a

/-- The instruction completes in t, and every byte outside the stored addresses is kept. -/
def Completes (i : Instr) (s t : State) (stored : List Word) : Prop := exec i s = .next t ∧ BytesKept s t stored

/-- A load from memory: one read at ea; the byte goes to the register `put` writes and to Z and N; all else stays. An unmapped ea
gives 0xFF (40_load_store.md R110, R111). -/
def LoadsByte (i : Instr) (s : State) (ea : Word) (put : State → Byte → State) : Prop :=
  ∃ p', NzBits (s.peek ea) s.p p' ∧
    Completes i s { put (s.access (.read ea (s.peek ea))) (s.peek ea) with p := p' } [] ∧
    (s.unmappedAt ea = true → s.peek ea = 0xFF#8)

/-- A load of an immediate: no access. -/
def LoadsValue (i : Instr) (s : State) (v : Byte) (put : State → Byte → State) : Prop :=
  ∃ p', NzBits v s.p p' ∧ Completes i s { put s v with p := p' } []

/-- A store: one write at ea, no register and no flag. RAM then reads as stored, and an unmapped write is dropped
(40_load_store.md R110, R114). -/
def StoresByte (i : Instr) (s : State) (ea : Word) (v : Byte) : Prop :=
  Completes i s (s.access (.write ea v)) [ea] ∧
    (s.ramAt ea = true → (s.access (.write ea v)).peek ea = v) ∧
    (s.unmappedAt ea = true → (s.access (.write ea v)).regions = s.regions)

/-- A compare with a byte of memory: one read at ea, then the compare rule on P alone (41_compare.md R141). -/
def ComparesByte (i : Instr) (s : State) (ea : Word) (r : Byte) : Prop :=
  ∃ p', CompareBits r (s.peek ea) s.p p' ∧
    Completes i s { s.access (.read ea (s.peek ea)) with p := p' } [] ∧
    (s.unmappedAt ea = true → s.peek ea = 0xFF#8)

/-- A compare with an immediate: P alone. -/
def ComparesValue (i : Instr) (s : State) (m r : Byte) : Prop :=
  ∃ p', CompareBits r m s.p p' ∧ Completes i s { s with p := p' } []

end Sys2Proof.Machine
end

