-- ==== Sys2Proof/Certificates/Slice0/Obligations.lean ====
section
/-! DEFINITION. The statements about the model, each a Prop; nothing is proved here. A result statement speaks of exec, whose
state is the one after the step has fetched the instruction's bytes (log 1), and writes the next state out as the state
before with the fields the rule changes: every other field is unchanged. -/

open Sys2Proof Sys2Proof.Machine

/-! Encoding. -/

/-- One word of each family, bit by bit from spec/opcode_table.json's "encoding", decodes to its instruction (log 9: the byte values are
the spec's, from general knowledge). -/
def Obligations.SpecWordsDecode : Prop :=
  decode [0b10101001#8, 0x80#8] = .ok (.ldaImm 0x80#8, []) ∧
  decode [0b10011001#8, 0xFE#8, 0x20#8] = .ok (.staAbsy 0x20FE#16, []) ∧
  decode [0b11011101#8, 0xFF#8, 0x30#8] = .ok (.cmpAbsx 0x30FF#16, []) ∧
  decode [0b00101000#8] = .ok (.plp, []) ∧
  decode [0b00100000#8, 0x40#8, 0x20#8] = .ok (.jsrAbs 0x2040#16, []) ∧
  decode [0b01101100#8, 0x00#8, 0x30#8] = .ok (.jmpInd 0x3000#16, []) ∧
  decode [0b11001010#8] = .ok (.dex, []) ∧
  decode [0b10111000#8] = .ok (.clv, []) ∧
  decode [0b11101010#8] = .ok (.nop, [])

/-- The bytes of every well-formed instruction decode to it, whatever follows. -/
def Obligations.EncodedInstructionDecodesToItself : Prop :=
  ∀ (i : Instr) (rest : List Byte), i.wellFormed = true → decode (encode i ++ rest) = .ok (i, rest)

/-- Bytes that decode are the bytes of the instruction they decode to: no other encoding of it exists. -/
def Obligations.DecodedBytesAreTheEncoding : Prop :=
  ∀ (bytes rest : List Byte) (i : Instr), decode bytes = .ok (i, rest) → bytes = encode i ++ rest

/-- The decoder admits exactly the 61 bytes of 30_encoding.md R98, each by the row that names it, and rejects every other by name
(log 9, log 28). -/
def Obligations.DecoderAdmitsExactlyTheTable : Prop :=
  ∀ (op : Byte) (rest : List Byte),
    let listed : List Byte :=
      [0x08, 0x18, 0x20, 0x28, 0x38, 0x48, 0x4C, 0x58, 0x60, 0x68, 0x6C, 0x78, 0x84, 0x85, 0x86, 0x88, 0x8A, 0x8C, 0x8D,
        0x8E, 0x94, 0x95, 0x98, 0x99, 0x9D, 0xA0, 0xA2, 0xA4, 0xA5, 0xA6, 0xA8, 0xA9, 0xAA, 0xAC, 0xAD, 0xAE, 0xB4, 0xB5,
        0xB8, 0xB9, 0xBC, 0xBD, 0xBE, 0xC0, 0xC4, 0xC5, 0xC8, 0xC9, 0xCA, 0xCC, 0xCD, 0xD5, 0xD8, 0xD9, 0xDD, 0xE0, 0xE4,
        0xE8, 0xEA, 0xEC, 0xF8]
    (op ∈ listed ↔ ∃ row, lookupRow op = some row ∧ row.opcode = op) ∧
    (op ∉ listed → decode (op :: rest) = .error (.unknownOpcode op))

/-! Construction and reset. -/

/-- 10_state.md R42: every register is zero at construction. -/
def Obligations.ConstructionZeroesTheRegisterFile : Prop :=
  ∀ c : Config,
    (State.construct c).a = 0#8 ∧ (State.construct c).x = 0#8 ∧ (State.construct c).y = 0#8 ∧
    (State.construct c).sp = 0#8 ∧ (State.construct c).pc = 0#16 ∧ (State.construct c).p = 0#8 ∧
    (∀ f, flagGet (State.construct c).p f = false) ∧
    (State.construct c).p.getLsbD 4 = false ∧ (State.construct c).p.getLsbD 5 = false

/-- 70_reset_and_hazards.md R242, row by row: construction, then reset(). RAM contents are RAM_INIT: the image's byte where there is
an image, and under `draw` a free value (log 5), of which nothing is said. That reset() leaves every other register, the regions and the marks is
the spec's decisions D9 and D17 (log 13). -/
def Obligations.StateAtConstructionAndAfterReset : Prop :=
  ∀ c : Config,
    let s := State.construct c
    let t := s.resetPort
    (s.a = 0#8 ∧ s.x = 0#8 ∧ s.y = 0#8 ∧ s.sp = 0#8 ∧ s.p = 0#8 ∧ s.pc = 0#16) ∧
    (t.a = 0#8 ∧ t.x = 0#8 ∧ t.y = 0#8 ∧ t.sp = 0#8 ∧ t.p = 0#8) ∧
    t.pc = concat16 ((s.access (.read 0xFFFC#16 (s.peek 0xFFFC#16))).peek 0xFFFD#16) (s.peek 0xFFFC#16) ∧
    (s.decls = c.regions ∧ t.decls = c.regions) ∧
    (∀ a : Word, s.deviceAt a = false → t.peek a = s.peek a) ∧
    (∀ (a : Word) (r : Region) (fill : Byte) (image : List Host.Cell), regionAt s.regions a = some r →
      r.decl.kind = .ram (.fixed fill image) → s.peek a = (Memory.get? image (a.toNat - r.start.toNat)).getD fill) ∧
    (∀ r ∈ s.regions, ∀ b, r.decl.kind = .device b → r.body = .device b []) ∧
    t.regions = deliver (deliver s.regions (.read 0xFFFC#16 (s.peek 0xFFFC#16)))
      (.read 0xFFFD#16 ((s.access (.read 0xFFFC#16 (s.peek 0xFFFC#16))).peek 0xFFFD#16)) ∧
    (s.fault = none ∧ t.fault = none) ∧ (s.refused = false ∧ t.refused = false)

/-- reset() on any state reads the two vector bytes, low first, writes PC, and leaves every other register and both marks (the
spec's decisions D9 and D17, log 13). With both vector bytes unmapped PC is 0xFFFF. -/
def Obligations.ResetLoadsPcAndNothingElse : Prop :=
  ∀ s : State, ∃ (lo hi : Byte) (w : Word),
    lo = s.peek 0xFFFC#16 ∧ hi = (s.access (.read 0xFFFC#16 lo)).peek 0xFFFD#16 ∧ w.toNat = hi.toNat * 256 + lo.toNat ∧
    s.resetPort = { s with
      pc := w
      regions := deliver (deliver s.regions (.read 0xFFFC#16 lo)) (.read 0xFFFD#16 hi)
      bus := [.read 0xFFFC#16 lo, .read 0xFFFD#16 hi] } ∧
    (s.unmappedAt 0xFFFC#16 = true → s.unmappedAt 0xFFFD#16 = true → s.resetPort.pc = 0xFFFF#16)

/-- The boot order (the spec's decision D11, log 24): with one RAM region over the whole space, the machine starts at the address the
host wrote at the vector last, whatever else was written and whatever registers were set. -/
def Obligations.BootStartsAtTheWrittenVector : Prop :=
  ∀ (init : RamInit) (params : Params) (image : List (Word × List Byte)) (regs : List RegWrite) (lo hi : Byte),
    (State.boot { regions := [{ start := 0#16, size := 0x10000, kind := .ram init }], params := params }
      (image ++ [(0xFFFC#16, [lo, hi])]) regs).pc.toNat = hi.toNat * 256 + lo.toNat

/-- The canonical form holds at reset. -/
def Obligations.ResetMemoryIsCanonical : Prop := State.reset.memWf = true

/-! The Address Space. -/

/-- 20_memory.md R53: a read returns the byte of the first region in registration order that holds the address, or 0xFF. -/
def Obligations.ReadIsFirstMatchingRegionsByte : Prop :=
  ∀ (s : State) (a : Word),
    (∀ (pre : List Region) (r : Region) (post : List Region), s.regions = pre ++ r :: post →
      (∀ q ∈ pre, q.inRange a = false) → r.inRange a = true → (s.memRead a).1 = r.byteAt pre.length a) ∧
    ((∀ q ∈ s.regions, q.inRange a = false) → (s.memRead a).1 = 0xFF#8 ∧ (s.memRead a).2.regions = s.regions)

/-- 20_memory.md R55: a write goes to the first region in registration order that holds the address, and to no other; without one it is
dropped. -/
def Obligations.WriteReachesOnlyFirstMatchingRegion : Prop :=
  ∀ (s : State) (a : Word) (v : Byte),
    (∀ (pre : List Region) (r : Region) (post : List Region), s.regions = pre ++ r :: post →
      (∀ q ∈ pre, q.inRange a = false) → r.inRange a = true →
      (s.memWrite a v).regions = pre ++ r.accept (.write a v) :: post) ∧
    ((∀ q ∈ s.regions, q.inRange a = false) → (s.memWrite a v).regions = s.regions)

/-- 20_memory.md R57: a RAM region is a flat array of bytes at offset address - start: a write is read back and changes that one byte, a
read changes nothing, and before any write a byte is RAM_INIT's (under `draw` it is free, log 5). -/
def Obligations.RamRegionIsAByteArray : Prop :=
  (∀ (k : Nat) (r : Region) (init : RamInit) (mem : Memory) (a b : Word) (v w : Byte), r.body = .ram init mem →
    r.inRange a = true → r.inRange b = true →
    r.byteAt k a = ramByte k init mem (a.toNat - r.start.toNat) ∧
    (r.accept (.write a v)).byteAt k a = v ∧
    (b ≠ a → (r.accept (.write a v)).byteAt k b = r.byteAt k b) ∧
    r.accept (.read a w) = r) ∧
  (∀ (k : Nat) (start : Word) (size : Nat) (fill : Byte) (image : List Host.Cell) (a : Word),
    (constructRegion { start := start, size := size, kind := .ram (.fixed fill image) }).byteAt k a =
      (Memory.get? image (a.toNat - start.toNat)).getD fill)

/-- The range test is over unbounded integers and does not wrap (the spec's decision D8, log 12). -/
def Obligations.RangeTestDoesNotWrap : Prop :=
  ∀ (r : Region) (a : Word),
    (r.inRange a = true ↔ r.start.toNat ≤ a.toNat ∧ a.toNat < r.start.toNat + r.size) ∧
    (r.size = 0 → r.inRange a = false) ∧ (a.toNat < r.start.toNat → r.inRange a = false)

/-- A device region answers what its behaviour says of the record of all it has seen, and records every access it receives, read or
write; without a description the answer is the free value (the spec's decision D12, log 6). No register changes. -/
def Obligations.DeviceRecordsEveryAccess : Prop :=
  ∀ (s : State) (pre post : List Region) (r : Region) (b : DeviceBehaviour) (log : List DeviceEvent) (a : Word) (v : Byte),
    s.regions = pre ++ r :: post → r.body = .device b log → (∀ q ∈ pre, q.inRange a = false) → r.inRange a = true →
    let byte := b.answer pre.length r.start log a
    s.memRead a = (byte,
      { s with
        regions := pre ++ { r with body := .device b (log ++ [.access (.read a byte)]) } :: post
        bus := s.bus ++ [.read a byte] }) ∧
    s.memWrite a v =
      { s with
        regions := pre ++ { r with body := .device b (log ++ [.access (.write a v)]) } :: post
        bus := s.bus ++ [.write a v] } ∧
    (b = .draw → byte = Config.deviceRead pre.length log a)

/-- DEVICE_k given as a description (00_scope.md R8, 20_memory.md R58; the language is the model's choice, log 31): the k-th region
answers what the description computes from the store; the store starts at its initial contents, and each read, write and
change of its own runs the description's handler on the store as it stood, with the access's offset and byte and the event's
free byte; it stays in canonical form. A change between steps (20_memory.md R67) reaches that one region. -/
def Obligations.DescribedDeviceFollowsItsProgram : Prop :=
  (∀ (d : DeviceProgram) (k : Nat) (start : Word) (log : List DeviceEvent) (a : Word) (v : Byte),
    let free := Config.deviceRead k log a
    let context (value : Byte) : DeviceContext :=
      { k := k, init := d.init, offset := a.toNat - start.toNat, value := value, free := free }
    let store := d.contents k start log
    ((DeviceBehaviour.program d).answer k start log a).toNat = d.answer.eval (context 0#8) store % 256 ∧
    (∀ n, ramByte k d.init (d.contents k start []) n = (unlisted d.init n).getD (Config.ramDraw k n)) ∧
    d.contents k start (log ++ [.access (.read a v)]) = d.onRead.run (context v) d.size store ∧
    d.contents k start (log ++ [.access (.write a v)]) = d.onWrite.run (context v) d.size store ∧
    d.contents k start (log ++ [.change]) =
      d.onChange.run { k := k, init := d.init, offset := 0, value := 0#8, free := Config.deviceRead k log start } d.size store ∧
    Memory.wf d.init d.size store = true) ∧
  (∀ (s : State) (pre post : List Region) (r : Region) (b : DeviceBehaviour) (log : List DeviceEvent),
    s.regions = pre ++ r :: post → r.body = .device b log →
    s.deviceChange pre.length = { s with regions := pre ++ { r with body := .device b (log ++ [.change]) } :: post })

/-- The HOSTBUS port (20_memory.md R56). A host write delivers byte i at (address + i) mod 2^16, in order, each byte's region looked up
anew, devices included, and changes nothing else (the wrap is the spec's decision D7, log 11): where RAM answers, byte i is read
back there; every other byte of RAM and open bus stays; a region that answers none of the addresses stays, be it a
device. A host read is one read of the Address Space, and CORE's own list of accesses does not show it (log 27). -/
def Obligations.HostWritePlacesEachByte : Prop :=
  (∀ (s : State) (a : Word) (bytes : List Byte),
    s.hostWrite a bytes =
      { s with regions := (bytes.mapIdx fun i v => BusAccess.write (a + BitVec.ofNat 16 i) v).foldl deliver s.regions } ∧
    (bytes.length ≤ 0x10000 → ∀ (n : Nat) (v : Byte), bytes[n]? = some v → s.ramAt (a + BitVec.ofNat 16 n) = true →
      (s.hostWrite a bytes).peek (a + BitVec.ofNat 16 n) = v) ∧
    (∀ b : Word, s.deviceAt b = false → (∀ n, n < bytes.length → b ≠ a + BitVec.ofNat 16 n) →
      (s.hostWrite a bytes).peek b = s.peek b) ∧
    (∀ (pre : List Region) (r : Region) (post : List Region), s.regions = pre ++ r :: post →
      (∀ n, n < bytes.length → r.inRange (a + BitVec.ofNat 16 n) = true → ∃ q ∈ pre, q.inRange (a + BitVec.ofNat 16 n) = true) →
      (s.hostWrite a bytes).regions[pre.length]? = some r)) ∧
  (∀ (s : State) (a : Word), s.hostRead a = ((s.memRead a).1, { s with regions := (s.memRead a).2.regions }))

/-! What every step keeps. -/

/-- A step keeps the canonical form of every RAM region. -/
def Obligations.StepKeepsMemoryCanonical : Prop :=
  ∀ s t : State, s.memWf = true → step s = .next t → t.memWf = true

/-- A step changes no region's range or kind, not their order, and no parameter (20_memory.md R51). -/
def Obligations.StepKeepsConfiguration : Prop :=
  ∀ s t : State, step s = .next t → t.decls = s.decls ∧ t.cfg = s.cfg

/-- The Address Space after a step is the one before with exactly the step's accesses delivered in order; the first is the opcode
fetch at PC, and there are at most five (the spec's decision D6, log 22). -/
def Obligations.StepReachesMemoryOnlyByItsAccesses : Prop :=
  ∀ s t : State, step s = .next t →
    t.regions = t.bus.foldl deliver s.regions ∧
    t.bus.head? = some (.read s.pc (s.peek s.pc)) ∧ t.bus.length ≤ 5

/-- Every byte of RAM and open bus that no write of the step names reads as before (00_scope.md R15). -/
def Obligations.StepLeavesUnwrittenBytes : Prop :=
  ∀ (s t : State) (a : Word), step s = .next t → s.deviceAt a = false → (∀ v, .write a v ∉ t.bus) → t.peek a = s.peek a

/-! The step. -/

/-- A step whose fetched bytes are those of an instruction runs exactly that instruction, in the state after the fetch reads: from
any memory, devices included. -/
def Obligations.StepRunsTheDecodedInstruction : Prop :=
  ∀ (i : Instr) (s : State), i.wellFormed = true → s.running = true →
    (i.basis = .byClass → s.cfg.classRows = .execute) →
    (State.fetchBytes (encode i).length s.clearBus).1 = encode i →
    step s = exec i (State.fetchBytes (encode i).length s.clearBus).2

/-- The same from bytes of RAM or open bus: PC moves past the instruction, the accesses are the reads of its bytes, and nothing
else differs in the state exec is given. -/
def Obligations.StepFromPlainMemory : Prop :=
  ∀ (s : State) (i : Instr) (b0 b1 b2 : Byte) (rest : List Byte), s.running = true →
    (i.basis = .byClass → s.cfg.classRows = .execute) →
    (∀ k : Nat, k < (encode i).length → s.deviceAt (s.pc + BitVec.ofNat 16 k) = false) →
    b0 = s.peek s.pc → b1 = s.peek (s.pc + 1#16) → b2 = s.peek (s.pc + 2#16) →
    decode [b0, b1, b2] = .ok (i, rest) →
    step s = exec i { s with
      pc := s.pc + BitVec.ofNat 16 (encode i).length
      bus := ([.read s.pc b0, .read (s.pc + 1#16) b1, .read (s.pc + 2#16) b2] : List BusAccess).take (encode i).length }

/-- An unknown opcode: one byte long under `nop`; the fault record or the refusal mark otherwise, with PC at the opcode. The opcode
fetch has happened in each (the spec's decision D3, log 7). -/
def Obligations.UnknownOpcodeFollowsPolicy : Prop :=
  ∀ s : State, s.running = true → lookupRow (s.peek s.pc) = none →
    let f := s.clearBus.access (.read s.pc (s.peek s.pc))
    (s.cfg.unknownOpcode = .nop → step s = .next { f with pc := s.pc + 1#16 }) ∧
    (s.cfg.unknownOpcode = .fault → step s = .next { f with pc := s.pc, fault := some (s.peek s.pc, s.pc) }) ∧
    (s.cfg.unknownOpcode = .refuse → step s = .next { f with pc := s.pc, refused := true })

/-- A class row under CLASS_ROWS = refuse: the refusal mark, PC at the opcode, no operand byte fetched (the spec's decision D2, log 8). -/
def Obligations.RefusedClassRowSetsTheMark : Prop :=
  ∀ (s : State) (i : Instr), s.running = true → s.cfg.classRows = .refuse → i.basis = .byClass → s.peek s.pc = i.opcode →
    step s = .next { s.clearBus.access (.read s.pc i.opcode) with pc := s.pc, refused := true }

/-- A step completes exactly when no mark is set: CORE raises nothing, and a marked machine has no further step, answering its
mark (log 7). -/
def Obligations.StepCompletesExactlyWhenUnmarked : Prop :=
  ∀ s : State,
    ((∃ t, step s = .next t) ↔ s.running = true) ∧
    (∀ op a, s.fault = some (op, a) → step s = .fault (.unknownOpcode op a)) ∧
    (s.fault = none → s.refused = true → step s = .refused .refusalMark)

/-- A step sets the fault record only under policy `fault` at an unknown opcode, to that opcode and its address, and the refusal mark only
under policy `refuse` at an unknown opcode or under CLASS_ROWS = refuse at a class row; so under the default parameters it
sets none (log 7, log 8). -/
def Obligations.DefaultParametersNeverMark : Prop :=
  ∀ s t : State, step s = .next t →
    (t.fault ≠ none → s.cfg.unknownOpcode = .fault ∧ lookupRow (s.peek s.pc) = none ∧ t.fault = some (s.peek s.pc, s.pc)) ∧
    (t.refused = true →
      (s.cfg.unknownOpcode = .refuse ∧ lookupRow (s.peek s.pc) = none) ∨
      (s.cfg.classRows = .refuse ∧ ∃ row, lookupRow (s.peek s.pc) = some row ∧ row.basis = .byClass)) ∧
    (s.cfg = { unknownOpcode := .nop, classRows := .execute } → t.running = true)

/-- The halt idiom is a fixed point: only the step's own accesses differ, and the idiom still stands (the spec's decision D16, log 18). -/
def Obligations.HaltIdiomRepeatsForEver : Prop :=
  ∀ s : State, s.atHalt = true → s.running = true →
    ∃ t, step s = .next t ∧ t.atHalt = true ∧
      t = { s with bus := [.read s.pc 0x4C#8, .read (s.pc + 1#16) (loByte s.pc), .read (s.pc + 2#16) (hiByte s.pc)] }

/-! Status register. -/

/-- 10_state.md R32: get and set over the six flags, at the positions 0, 1, 2, 3, 6, 7; set writes that bit of P and nothing else. -/
def Obligations.FlagSetWritesThatBitOnly : Prop :=
  ∀ (p : Byte) (b : Bool),
    (∀ f, flagGet p f = p.getLsbD (flagBit f)) ∧
    OneBit 0 b p (flagSet p .c b) ∧ OneBit 1 b p (flagSet p .z b) ∧ OneBit 2 b p (flagSet p .i b) ∧
    OneBit 3 b p (flagSet p .d b) ∧ OneBit 6 b p (flagSet p .v b) ∧ OneBit 7 b p (flagSet p .n b) ∧
    [flagBit .c, flagBit .z, flagBit .i, flagBit .d, flagBit .v, flagBit .n] = [0, 1, 2, 3, 6, 7] ∧
    (∀ (s : State) (f : Flag), s.setFlag f b = { s with p := flagSet s.p f b })

/-- 10_state.md R28: the NZ update of a value, and which instructions apply it to what: loads, transfers, increments, decrements and PLA
to the register they write, compares to the register compared; stores, PHA, PHP, jumps, JSR, RTS, the flag instructions and
NOP leave Z and N, and PLP takes them from the pulled byte (42_stack.md R163). That CPX, CPY and CMP in memory modes follow the
compare rule is the spec's decision D5 (log 10), that the class rows of loads, stores and compares exist its decision D1 (log 8). -/
def Obligations.NzUpdateIsAppliedWhereListed : Prop :=
  (∀ p v : Byte, NzBits v p (nzUpdate p v)) ∧
  ∀ (i : Instr) (s t : State), exec i s = .next t →
    (i.mnemonic ∈ [.lda, .txa, .tya, .pla, .cmp] → t.p.getLsbD 1 = (t.a == 0#8) ∧ t.p.getLsbD 7 = t.a.getLsbD 7) ∧
    (i.mnemonic ∈ [.ldx, .tax, .inx, .dex, .cpx] → t.p.getLsbD 1 = (t.x == 0#8) ∧ t.p.getLsbD 7 = t.x.getLsbD 7) ∧
    (i.mnemonic ∈ [.ldy, .tay, .iny, .dey, .cpy] → t.p.getLsbD 1 = (t.y == 0#8) ∧ t.p.getLsbD 7 = t.y.getLsbD 7) ∧
    (i.mnemonic ∈ [.sta, .stx, .sty, .pha, .php, .jmp, .jsr, .rts, .clc, .sec, .cli, .sei, .clv, .cld, .sed, .nop] →
      t.p.getLsbD 1 = s.p.getLsbD 1 ∧ t.p.getLsbD 7 = s.p.getLsbD 7) ∧
    (i.mnemonic = .plp → t.p = s.peek (stackAddr (s.sp + 1#8)))

/-- 10_state.md R29's table: a flag changes only by the instructions listed for it, bits 4 and 5 only by PLP. -/
def Obligations.EachFlagHasItsWriters : Prop :=
  ∀ (i : Instr) (s t : State), exec i s = .next t →
    (i.mnemonic ∉ [.clc, .sec, .cmp, .cpx, .cpy, .plp] → t.p.getLsbD 0 = s.p.getLsbD 0) ∧
    (i.mnemonic ∉ [.lda, .ldx, .ldy, .tax, .txa, .tay, .tya, .inx, .dex, .iny, .dey, .pla, .cmp, .cpx, .cpy, .plp] →
      t.p.getLsbD 1 = s.p.getLsbD 1 ∧ t.p.getLsbD 7 = s.p.getLsbD 7) ∧
    (i.mnemonic ∉ [.cli, .sei, .plp] → t.p.getLsbD 2 = s.p.getLsbD 2) ∧
    (i.mnemonic ∉ [.cld, .sed, .plp] → t.p.getLsbD 3 = s.p.getLsbD 3) ∧
    (i.mnemonic ≠ .plp → t.p.getLsbD 4 = s.p.getLsbD 4 ∧ t.p.getLsbD 5 = s.p.getLsbD 5) ∧
    (i.mnemonic ∉ [.clv, .plp] → t.p.getLsbD 6 = s.p.getLsbD 6) ∧
    (i.mnemonic = .clv → t.p.getLsbD 6 = false)

/-- 10_state.md R29: no instruction but PHP depends on P: changing P beforehand changes nothing but P afterwards. -/
def Obligations.StatusSteersNothingButPhp : Prop :=
  ∀ (i : Instr) (s t : State) (q : Byte), i ≠ .php → exec i s = .next t →
    ∃ q', exec i { s with p := q } = .next { t with p := q' }

/-- 10_state.md R21 to R24, the writers: no other instruction changes the register; PC changes in exec only by jumps, JSR and RTS; the
marks and the parameters never; memory only by stores, pushes and JSR. -/
def Obligations.EachRegisterHasItsWriters : Prop :=
  ∀ (i : Instr) (s t : State), exec i s = .next t →
    (i.mnemonic ∉ [.lda, .txa, .tya, .pla] → t.a = s.a) ∧
    (i.mnemonic ∉ [.ldx, .tax, .inx, .dex] → t.x = s.x) ∧
    (i.mnemonic ∉ [.ldy, .tay, .iny, .dey] → t.y = s.y) ∧
    (i.mnemonic ∉ [.pha, .php, .pla, .plp, .jsr, .rts] → t.sp = s.sp) ∧
    (i.mnemonic ∉ [.jmp, .jsr, .rts] → t.pc = s.pc) ∧
    (i.mnemonic ∉ [.sta, .stx, .sty, .pha, .php, .jsr] → BytesKept s t []) ∧
    t.fault = s.fault ∧ t.refused = s.refused ∧ t.cfg = s.cfg

/-- 10_state.md R21 to R24, the readers: an instruction not listed as a reader of a register, nor using it as an index, does the same
whatever the register holds, and leaves it or overwrites it. -/
def Obligations.EachRegisterHasItsReaders : Prop :=
  ∀ (i : Instr) (s t : State) (v : Byte), exec i s = .next t →
    (i.mnemonic ∉ [.sta, .cmp, .tax, .tay, .pha] →
      exec i { s with a := v } = .next (if i.mnemonic ∈ [.lda, .txa, .tya, .pla] then t else { t with a := v })) ∧
    (i.mnemonic ∉ [.stx, .cpx, .txa, .inx, .dex] → i.mode ≠ .zpx → i.mode ≠ .absx →
      exec i { s with x := v } = .next (if i.mnemonic ∈ [.ldx, .tax] then t else { t with x := v })) ∧
    (i.mnemonic ∉ [.sty, .cpy, .tya, .iny, .dey] → i.mode ≠ .absy →
      exec i { s with y := v } = .next (if i.mnemonic ∈ [.ldy, .tay] then t else { t with y := v })) ∧
    (i.mnemonic ∉ [.pha, .php, .pla, .plp, .jsr, .rts] → exec i { s with sp := v } = .next { t with sp := v })

/-- 10_state.md R31: the eight characters, bit 7 first. -/
def Obligations.RenderShowsTheSixFlags : Prop :=
  (∀ p : Byte, (renderString p).toList =
    [ if p.getLsbD 7 then 'N' else 'n', if p.getLsbD 6 then 'V' else 'v', '-', '-',
      if p.getLsbD 3 then 'D' else 'd', if p.getLsbD 2 then 'I' else 'i',
      if p.getLsbD 1 then 'Z' else 'z', if p.getLsbD 0 then 'C' else 'c' ]) ∧
  renderString 0x81#8 = "Nv--dizC"

/-! Operands and the stack. -/

/-- The effective addresses as numbers (30_encoding.md R92 to R95; R95's wrap is the spec's decision D7, log 11), and the indirect target: two
reads, low then high, the second at the pointer plus one modulo 2^16 (R96). -/
def Obligations.EffectiveAddressArithmetic : Prop :=
  ∀ (s : State) (b : Byte) (w : Word),
    (eaZp b).toNat = b.toNat ∧
    (eaZpx s b).toNat = (b.toNat + s.x.toNat) % 256 ∧
    eaAbs w = w ∧
    (eaAbsx s w).toNat = (w.toNat + s.x.toNat) % 65536 ∧
    (eaAbsy s w).toNat = (w.toNat + s.y.toNat) % 65536 ∧
    ∃ lo hi : Byte, lo = s.peek w ∧ hi = (s.access (.read w lo)).peek (w + 1#16) ∧
      (s.resolveInd w).1.toNat = hi.toNat * 256 + lo.toNat ∧
      (s.resolveInd w).2 = (s.access (.read w lo)).access (.read (w + 1#16) hi)

/-- 10_state.md R33, R34: push stores at 0x0100 + S and then decrements S; pull increments S and then loads from 0x0100 + S. -/
def Obligations.PushAndPullUsePageOne : Prop :=
  ∀ (s : State) (v : Byte), ∃ up down : Byte,
    (stackAddr s.sp).toNat = 0x0100 + s.sp.toNat ∧
    down.toNat = (s.sp.toNat + 255) % 256 ∧ up.toNat = (s.sp.toNat + 1) % 256 ∧ (stackAddr up).toNat = 0x0100 + up.toNat ∧
    s.push v = { s.access (.write (stackAddr s.sp) v) with sp := down } ∧
    s.pull = (s.peek (stackAddr up), { s.access (.read (stackAddr up) (s.peek (stackAddr up))) with sp := up })

/-! Loads and stores. -/

/-- LDA in every form (40_load_store.md R111). They are class rows, whose presence is the spec's decision D1 (log 8); abs,X and abs,Y wrap by D7, log 11; the opcode
bytes are the spec's, from general knowledge (log 9). -/
def Obligations.LdaLoadsTheAccumulator : Prop :=
  ∀ (s : State) (v z : Byte) (w : Word),
    let put := fun (t : State) (b : Byte) => { t with a := b }
    (RunsFrom [0xA9#8, v] (.ldaImm v) ∧ LoadsValue (.ldaImm v) s v put) ∧
    (RunsFrom [0xA5#8, z] (.ldaZp z) ∧ LoadsByte (.ldaZp z) s (eaZp z) put) ∧
    (RunsFrom [0xB5#8, z] (.ldaZpx z) ∧ LoadsByte (.ldaZpx z) s (eaZpx s z) put) ∧
    (RunsFrom [0xAD#8, loByte w, hiByte w] (.ldaAbs w) ∧ LoadsByte (.ldaAbs w) s (eaAbs w) put) ∧
    (RunsFrom [0xBD#8, loByte w, hiByte w] (.ldaAbsx w) ∧ LoadsByte (.ldaAbsx w) s (eaAbsx s w) put) ∧
    (RunsFrom [0xB9#8, loByte w, hiByte w] (.ldaAbsy w) ∧ LoadsByte (.ldaAbsy w) s (eaAbsy s w) put)

/-- LDX in every form (40_load_store.md R112). They are class rows, whose presence is the spec's decision D1 (log 8); abs,Y wraps by D7, log 11; the opcode
bytes are the spec's, from general knowledge (log 9). -/
def Obligations.LdxLoadsX : Prop :=
  ∀ (s : State) (v z : Byte) (w : Word),
    let put := fun (t : State) (b : Byte) => { t with x := b }
    (RunsFrom [0xA2#8, v] (.ldxImm v) ∧ LoadsValue (.ldxImm v) s v put) ∧
    (RunsFrom [0xA6#8, z] (.ldxZp z) ∧ LoadsByte (.ldxZp z) s (eaZp z) put) ∧
    (RunsFrom [0xAE#8, loByte w, hiByte w] (.ldxAbs w) ∧ LoadsByte (.ldxAbs w) s (eaAbs w) put) ∧
    (RunsFrom [0xBE#8, loByte w, hiByte w] (.ldxAbsy w) ∧ LoadsByte (.ldxAbsy w) s (eaAbsy s w) put)

/-- LDY in every form (40_load_store.md R113). They are class rows, whose presence is the spec's decision D1 (log 8); abs,X wraps by D7, log 11; the opcode
bytes are the spec's, from general knowledge (log 9). -/
def Obligations.LdyLoadsY : Prop :=
  ∀ (s : State) (v z : Byte) (w : Word),
    let put := fun (t : State) (b : Byte) => { t with y := b }
    (RunsFrom [0xA0#8, v] (.ldyImm v) ∧ LoadsValue (.ldyImm v) s v put) ∧
    (RunsFrom [0xA4#8, z] (.ldyZp z) ∧ LoadsByte (.ldyZp z) s (eaZp z) put) ∧
    (RunsFrom [0xB4#8, z] (.ldyZpx z) ∧ LoadsByte (.ldyZpx z) s (eaZpx s z) put) ∧
    (RunsFrom [0xAC#8, loByte w, hiByte w] (.ldyAbs w) ∧ LoadsByte (.ldyAbs w) s (eaAbs w) put) ∧
    (RunsFrom [0xBC#8, loByte w, hiByte w] (.ldyAbsx w) ∧ LoadsByte (.ldyAbsx w) s (eaAbsx s w) put)

/-- STA in every form (40_load_store.md R114). They are class rows, whose presence is the spec's decision D1 (log 8); abs,X and abs,Y wrap by D7, log 11; the opcode
bytes are the spec's, from general knowledge (log 9). -/
def Obligations.StaStoresTheAccumulator : Prop :=
  ∀ (s : State) (z : Byte) (w : Word),
    (RunsFrom [0x85#8, z] (.staZp z) ∧ StoresByte (.staZp z) s (eaZp z) s.a) ∧
    (RunsFrom [0x95#8, z] (.staZpx z) ∧ StoresByte (.staZpx z) s (eaZpx s z) s.a) ∧
    (RunsFrom [0x8D#8, loByte w, hiByte w] (.staAbs w) ∧ StoresByte (.staAbs w) s (eaAbs w) s.a) ∧
    (RunsFrom [0x9D#8, loByte w, hiByte w] (.staAbsx w) ∧ StoresByte (.staAbsx w) s (eaAbsx s w) s.a) ∧
    (RunsFrom [0x99#8, loByte w, hiByte w] (.staAbsy w) ∧ StoresByte (.staAbsy w) s (eaAbsy s w) s.a)

/-- STX in every form (40_load_store.md R115). They are class rows, whose presence is the spec's decision D1 (log 8); the opcode
bytes are the spec's, from general knowledge (log 9). -/
def Obligations.StxStoresX : Prop :=
  ∀ (s : State) (z : Byte) (w : Word),
    (RunsFrom [0x86#8, z] (.stxZp z) ∧ StoresByte (.stxZp z) s (eaZp z) s.x) ∧
    (RunsFrom [0x8E#8, loByte w, hiByte w] (.stxAbs w) ∧ StoresByte (.stxAbs w) s (eaAbs w) s.x)

/-- STY in every form (40_load_store.md R116). They are class rows, whose presence is the spec's decision D1 (log 8); the opcode
bytes are the spec's, from general knowledge (log 9). -/
def Obligations.StyStoresY : Prop :=
  ∀ (s : State) (z : Byte) (w : Word),
    (RunsFrom [0x84#8, z] (.styZp z) ∧ StoresByte (.styZp z) s (eaZp z) s.y) ∧
    (RunsFrom [0x94#8, z] (.styZpx z) ∧ StoresByte (.styZpx z) s (eaZpx s z) s.y) ∧
    (RunsFrom [0x8C#8, loByte w, hiByte w] (.styAbs w) ∧ StoresByte (.styAbs w) s (eaAbs w) s.y)

/-! Compares. -/

/-- 41_compare.md R140, on the form the document states it for. -/
def Obligations.CmpImmediateFollowsTheCompareRule : Prop :=
  (∀ p r m : Byte, CompareBits r m p (compareFlags p r m)) ∧
  ∀ (s : State) (m : Byte), ∃ p', CompareBits s.a m s.p p' ∧ exec (.cmpImm m) s = .next { s with p := p' }

/-- Every form of CMP, CPX and CPY follows the compare rule on its register (the spec's decision D5, log 10). -/
def Obligations.EveryCompareFollowsTheCompareRule : Prop :=
  ∀ (s : State) (m z : Byte) (w : Word),
    (RunsFrom [0xC9#8, m] (.cmpImm m) ∧ ComparesValue (.cmpImm m) s m s.a) ∧
    (RunsFrom [0xC5#8, z] (.cmpZp z) ∧ ComparesByte (.cmpZp z) s (eaZp z) s.a) ∧
    (RunsFrom [0xD5#8, z] (.cmpZpx z) ∧ ComparesByte (.cmpZpx z) s (eaZpx s z) s.a) ∧
    (RunsFrom [0xCD#8, loByte w, hiByte w] (.cmpAbs w) ∧ ComparesByte (.cmpAbs w) s (eaAbs w) s.a) ∧
    (RunsFrom [0xDD#8, loByte w, hiByte w] (.cmpAbsx w) ∧ ComparesByte (.cmpAbsx w) s (eaAbsx s w) s.a) ∧
    (RunsFrom [0xD9#8, loByte w, hiByte w] (.cmpAbsy w) ∧ ComparesByte (.cmpAbsy w) s (eaAbsy s w) s.a) ∧
    (RunsFrom [0xE0#8, m] (.cpxImm m) ∧ ComparesValue (.cpxImm m) s m s.x) ∧
    (RunsFrom [0xE4#8, z] (.cpxZp z) ∧ ComparesByte (.cpxZp z) s (eaZp z) s.x) ∧
    (RunsFrom [0xEC#8, loByte w, hiByte w] (.cpxAbs w) ∧ ComparesByte (.cpxAbs w) s (eaAbs w) s.x) ∧
    (RunsFrom [0xC0#8, m] (.cpyImm m) ∧ ComparesValue (.cpyImm m) s m s.y) ∧
    (RunsFrom [0xC4#8, z] (.cpyZp z) ∧ ComparesByte (.cpyZp z) s (eaZp z) s.y) ∧
    (RunsFrom [0xCC#8, loByte w, hiByte w] (.cpyAbs w) ∧ ComparesByte (.cpyAbs w) s (eaAbs w) s.y)

/-! Stack instructions. -/

/-- 42_stack.md R160. -/
def Obligations.PhaPushesTheAccumulator : Prop :=
  RunsFrom [0x48#8] .pha ∧
  ∀ s : State, ∃ down : Byte, down.toNat = (s.sp.toNat + 255) % 256 ∧
    Completes .pha s { s.access (.write (stackAddr s.sp) s.a) with sp := down } [stackAddr s.sp] ∧
    (s.unmappedAt (stackAddr s.sp) = true → (s.access (.write (stackAddr s.sp) s.a)).regions = s.regions)

/-- 42_stack.md R161: the byte pushed is P exactly. -/
def Obligations.PhpPushesTheStatusVerbatim : Prop :=
  RunsFrom [0x08#8] .php ∧
  ∀ s : State, ∃ down : Byte, down.toNat = (s.sp.toNat + 255) % 256 ∧
    Completes .php s { s.access (.write (stackAddr s.sp) s.p) with sp := down } [stackAddr s.sp] ∧
    (s.unmappedAt (stackAddr s.sp) = true → (s.access (.write (stackAddr s.sp) s.p)).regions = s.regions)

/-- 42_stack.md R162. -/
def Obligations.PlaPullsTheAccumulator : Prop :=
  RunsFrom [0x68#8] .pla ∧
  ∀ s : State, ∃ up p' : Byte, up.toNat = (s.sp.toNat + 1) % 256 ∧ NzBits (s.peek (stackAddr up)) s.p p' ∧
    Completes .pla s
      { s.access (.read (stackAddr up) (s.peek (stackAddr up))) with sp := up, a := s.peek (stackAddr up), p := p' } [] ∧
    (s.unmappedAt (stackAddr up) = true → s.peek (stackAddr up) = 0xFF#8)

/-- 42_stack.md R163: every bit of P is the pulled byte's. -/
def Obligations.PlpPullsTheStatusVerbatim : Prop :=
  RunsFrom [0x28#8] .plp ∧
  ∀ s : State, ∃ up : Byte, up.toNat = (s.sp.toNat + 1) % 256 ∧
    Completes .plp s
      { s.access (.read (stackAddr up) (s.peek (stackAddr up))) with sp := up, p := s.peek (stackAddr up) } [] ∧
    (s.unmappedAt (stackAddr up) = true → s.peek (stackAddr up) = 0xFF#8)

/-- 42_stack.md R164: for every S, PHA then PLA leaves A and S and sets Z, N from A; PHP then PLP leaves P and S; from an unmapped stack
byte the pull gives 0xFF. -/
def Obligations.PushThenPullRestores : Prop :=
  ∀ s : State,
    (s.ramAt (stackAddr s.sp) = true →
      (∃ t u, exec .pha s = .next t ∧ exec .pla t = .next u ∧ u.a = s.a ∧ u.sp = s.sp ∧ NzBits s.a s.p u.p ∧
        u.x = s.x ∧ u.y = s.y ∧ u.pc = s.pc) ∧
      (∃ t u, exec .php s = .next t ∧ exec .plp t = .next u ∧ u.p = s.p ∧ u.sp = s.sp ∧
        u.a = s.a ∧ u.x = s.x ∧ u.y = s.y ∧ u.pc = s.pc)) ∧
    (s.unmappedAt (stackAddr s.sp) = true →
      (∃ t u, exec .pha s = .next t ∧ exec .pla t = .next u ∧ u.a = 0xFF#8 ∧ u.sp = s.sp) ∧
      (∃ t u, exec .php s = .next t ∧ exec .plp t = .next u ∧ u.p = 0xFF#8 ∧ u.sp = s.sp))

/-! Control transfer. -/

/-- 43_control.md R170. -/
def Obligations.JmpAbsoluteSetsPc : Prop :=
  ∀ w : Word, RunsFrom [0x4C#8, loByte w, hiByte w] (.jmpAbs w) ∧ ∀ s : State, Completes (.jmpAbs w) s { s with pc := w } []

/-- JMP (abs): the target is read at the pointer, low byte first, the high byte at the pointer plus one modulo 2^16 (43_control.md R171; the
wrap at 0xFFFF is the spec's decision D7, log 11; no page bug). Unmapped pointer bytes give 0xFFFF. -/
def Obligations.JmpIndirectReadsItsTarget : Prop :=
  ∀ w : Word, RunsFrom [0x6C#8, loByte w, hiByte w] (.jmpInd w) ∧
    ∀ s : State, ∃ (lo hi : Byte) (target : Word),
      lo = s.peek w ∧ hi = (s.access (.read w lo)).peek (w + 1#16) ∧ target.toNat = hi.toNat * 256 + lo.toNat ∧
      Completes (.jmpInd w) s { (s.access (.read w lo)).access (.read (w + 1#16) hi) with pc := target } [] ∧
      (s.unmappedAt w = true → s.unmappedAt (w + 1#16) = true → target = 0xFFFF#16)

/-- 43_control.md R172: the return address is PC - 1, PC standing after the instruction; its high byte is pushed first. -/
def Obligations.JsrPushesTheReturnAddress : Prop :=
  ∀ w : Word, RunsFrom [0x20#8, loByte w, hiByte w] (.jsrAbs w) ∧
    ∀ s : State, ∃ hi lo mid down : Byte,
      hi.toNat * 256 + lo.toNat = (s.pc.toNat + 65535) % 65536 ∧
      mid.toNat = (s.sp.toNat + 255) % 256 ∧ down.toNat = (s.sp.toNat + 254) % 256 ∧
      Completes (.jsrAbs w) s
        { (s.access (.write (stackAddr s.sp) hi)).access (.write (stackAddr mid) lo) with sp := down, pc := w }
        [stackAddr s.sp, stackAddr mid] ∧
      (s.unmappedAt (stackAddr s.sp) = true → s.unmappedAt (stackAddr mid) = true →
        ((s.access (.write (stackAddr s.sp) hi)).access (.write (stackAddr mid) lo)).regions = s.regions)

/-- 43_control.md R173: PC is the pulled address, low byte first, plus one modulo 2^16. -/
def Obligations.RtsReturnsPastThePulledAddress : Prop :=
  RunsFrom [0x60#8] .rts ∧
  ∀ s : State, ∃ (up up2 lo hi : Byte) (target : Word),
    up.toNat = (s.sp.toNat + 1) % 256 ∧ up2.toNat = (s.sp.toNat + 2) % 256 ∧
    lo = s.peek (stackAddr up) ∧ hi = (s.access (.read (stackAddr up) lo)).peek (stackAddr up2) ∧
    target.toNat = (hi.toNat * 256 + lo.toNat + 1) % 65536 ∧
    Completes .rts s
      { (s.access (.read (stackAddr up) lo)).access (.read (stackAddr up2) hi) with sp := up2, pc := target } [] ∧
    (s.unmappedAt (stackAddr up) = true → s.unmappedAt (stackAddr up2) = true → target = 0#16)

/-- A call and its return: with RAM at the two stack bytes, RTS after JSR comes back to the byte after the JSR with S, A, X, Y and P as
before (43_control.md R172, R173). -/
def Obligations.CallThenReturnComesBack : Prop :=
  ∀ (s : State) (w : Word), s.ramAt (stackAddr s.sp) = true → s.ramAt (stackAddr (s.sp - 1#8)) = true →
    ∃ t u, exec (.jsrAbs w) s = .next t ∧ t.pc = w ∧ exec .rts t = .next u ∧
      u.pc = s.pc ∧ u.sp = s.sp ∧ u.a = s.a ∧ u.x = s.x ∧ u.y = s.y ∧ u.p = s.p ∧ u.regions = t.regions

/-! Transfers, increments, decrements. -/

/-- 44_transfer_incdec.md R180 to R183. -/
def Obligations.TransfersCopyAndUpdateNz : Prop :=
  (RunsFrom [0xAA#8] .tax ∧ RunsFrom [0x8A#8] .txa ∧ RunsFrom [0xA8#8] .tay ∧ RunsFrom [0x98#8] .tya) ∧
  ∀ s : State,
    (∃ p', NzBits s.a s.p p' ∧ Completes .tax s { s with x := s.a, p := p' } []) ∧
    (∃ p', NzBits s.x s.p p' ∧ Completes .txa s { s with a := s.x, p := p' } []) ∧
    (∃ p', NzBits s.a s.p p' ∧ Completes .tay s { s with y := s.a, p := p' } []) ∧
    (∃ p', NzBits s.y s.p p' ∧ Completes .tya s { s with a := s.y, p := p' } [])

/-- 44_transfer_incdec.md R184 to R187. -/
def Obligations.IncrementsAndDecrementsWrap : Prop :=
  (RunsFrom [0xE8#8] .inx ∧ RunsFrom [0xCA#8] .dex ∧ RunsFrom [0xC8#8] .iny ∧ RunsFrom [0x88#8] .dey) ∧
  ∀ s : State,
    (∃ v p', v.toNat = (s.x.toNat + 1) % 256 ∧ NzBits v s.p p' ∧ Completes .inx s { s with x := v, p := p' } []) ∧
    (∃ v p', v.toNat = (s.x.toNat + 255) % 256 ∧ NzBits v s.p p' ∧ Completes .dex s { s with x := v, p := p' } []) ∧
    (∃ v p', v.toNat = (s.y.toNat + 1) % 256 ∧ NzBits v s.p p' ∧ Completes .iny s { s with y := v, p := p' } []) ∧
    (∃ v p', v.toNat = (s.y.toNat + 255) % 256 ∧ NzBits v s.p p' ∧ Completes .dey s { s with y := v, p := p' } [])

/-! Flags, NOP. -/

/-- 45_flags.md R190 to R197. -/
def Obligations.FlagInstructionsWriteOneBit : Prop :=
  (RunsFrom [0x18#8] .clc ∧ RunsFrom [0x38#8] .sec ∧ RunsFrom [0x58#8] .cli ∧ RunsFrom [0x78#8] .sei ∧
    RunsFrom [0xB8#8] .clv ∧ RunsFrom [0xD8#8] .cld ∧ RunsFrom [0xF8#8] .sed) ∧
  ∀ s : State,
    (∃ p', OneBit 0 false s.p p' ∧ Completes .clc s { s with p := p' } []) ∧
    (∃ p', OneBit 0 true s.p p' ∧ Completes .sec s { s with p := p' } []) ∧
    (∃ p', OneBit 2 false s.p p' ∧ Completes .cli s { s with p := p' } []) ∧
    (∃ p', OneBit 2 true s.p p' ∧ Completes .sei s { s with p := p' } []) ∧
    (∃ p', OneBit 6 false s.p p' ∧ Completes .clv s { s with p := p' } []) ∧
    (∃ p', OneBit 3 false s.p p' ∧ Completes .cld s { s with p := p' } []) ∧
    (∃ p', OneBit 3 true s.p p' ∧ Completes .sed s { s with p := p' } [])

/-- NOP changes nothing, under every policy (the spec's decision D1, log 26). -/
def Obligations.NopChangesNothing : Prop :=
  RunsFrom [0xEA#8] .nop ∧ ∀ s : State, Completes .nop s s []

/-! Host ports. -/

/-- The REG port writes what it names and reads it back, and reaches neither memory nor the marks (the spec's decision D11, log 14). -/
def Obligations.RegisterPortReadsBackWhatItWrites : Prop :=
  ∀ (s : State) (v : Byte) (w : Word) (f : Flag) (b : Bool),
    s.regWrite (.a v) = { s with a := v } ∧ s.regWrite (.x v) = { s with x := v } ∧
    s.regWrite (.y v) = { s with y := v } ∧ s.regWrite (.s v) = { s with sp := v } ∧
    s.regWrite (.p v) = { s with p := v } ∧ s.regWrite (.pc w) = { s with pc := w } ∧
    (∃ p', OneBit (flagBit f) b s.p p' ∧ s.regWrite (.flag f b) = { s with p := p' }) ∧
    (s.regWrite (.flag f b)).regRead (.flag f) = .bit b ∧
    s.regRead .a = .byte s.a ∧ s.regRead .x = .byte s.x ∧ s.regRead .y = .byte s.y ∧ s.regRead .s = .byte s.sp ∧
    s.regRead .p = .byte s.p ∧ s.regRead .pc = .word s.pc
end

