-- ==== Sys2Proof/Laws/Ram.lean ====
section
/-! SUPPORT. The laws of one store's cells: read after write, and the canonical form. -/

namespace Sys2Proof.Laws

open Sys2Proof.Machine

theorem get?_insert (m : Memory) (off off' : Nat) (v : Byte) :
    Memory.get? (Memory.insert m off v) off' = if off' = off then some v else Memory.get? m off' := by
  induction m with
  | nil => simp [Memory.insert, Memory.get?, eq_comm]
  | cons c rest ih =>
    unfold Memory.insert
    split
    · simp [Memory.get?, eq_comm]
    · split
      · rename_i h
        by_cases hb : off' = off
        · simp [Memory.get?, hb]
        · simp [Memory.get?, hb, Ne.symm hb, ← h]
      · rename_i h
        simp only [Memory.get?, ih]
        by_cases hb : off' = off
        · subst hb; simp [Ne.symm h]
        · simp [hb]

theorem get?_erase (m : Memory) (off off' : Nat) :
    Memory.get? (Memory.erase m off) off' = if off' = off then none else Memory.get? m off' := by
  unfold Memory.erase
  induction m with
  | nil => simp [Memory.get?]
  | cons c rest ih =>
    by_cases hc : c.1 = off
    · by_cases hb : off' = off
      · simp_all
      · have h : c.1 ≠ off' := by rw [hc]; exact Ne.symm hb
        simp_all [Memory.get?]
    · by_cases hb : off' = off
      · subst hb; simp_all [Memory.get?]
      · simp_all [Memory.get?]

/-- Read after write in one RAM region, at every offset and in every list, canonical or not. -/
theorem ramByte_store (k : Nat) (init : RamInit) (m : Memory) (off off' : Nat) (v : Byte) :
    ramByte k init (Memory.store init m off v) off' = if off' = off then v else ramByte k init m off' := by
  unfold Memory.store ramByte
  by_cases h : unlisted init off = some v
  all_goals simp only [h, if_true, if_false]
  · rw [get?_erase]
    by_cases hb : off' = off
    · subst hb; simp [h]
    · simp [hb]
  · rw [get?_insert]
    by_cases hb : off' = off <;> simp [hb]

/-- A cell of the list after an insertion is the new one or an old one. -/
theorem mem_insert {m : Memory} {off : Nat} {v : Byte} {c : Host.Cell} (h : c ∈ Memory.insert m off v) :
    c = (off, v) ∨ c ∈ m := by
  induction m with
  | nil => simpa [Memory.insert] using h
  | cons d rest ih =>
    unfold Memory.insert at h
    split at h
    · simpa using h
    · split at h
      · rcases List.mem_cons.1 h with h | h
        · exact .inl h
        · exact .inr (List.mem_cons_of_mem _ h)
      · rcases List.mem_cons.1 h with h | h
        · exact .inr (h ▸ List.mem_cons_self)
        · exact (ih h).imp_right (List.mem_cons_of_mem _)

theorem rising_insert {m : Memory} (off : Nat) (v : Byte) (h : cellsRising m = true) :
    cellsRising (Memory.insert m off v) = true := by
  induction m with
  | nil => rfl
  | cons c rest ih =>
    simp only [cellsRising, Bool.and_eq_true, List.all_eq_true, decide_eq_true_eq] at h
    unfold Memory.insert
    split
    · rename_i hlt
      simp only [cellsRising, Bool.and_eq_true, List.all_eq_true, decide_eq_true_eq, List.mem_cons]
      refine ⟨?_, h.1, h.2⟩
      rintro d (rfl | hd)
      · exact hlt
      · exact lt_trans hlt (h.1 d hd)
    · split
      · rename_i heq
        simp only [cellsRising, Bool.and_eq_true, List.all_eq_true, decide_eq_true_eq]
        exact ⟨fun d hd => heq ▸ h.1 d hd, h.2⟩
      · simp only [cellsRising, Bool.and_eq_true, List.all_eq_true, decide_eq_true_eq]
        refine ⟨fun d hd => ?_, ih h.2⟩
        rcases mem_insert hd with rfl | hd
        · show c.1 < off
          omega
        · exact h.1 d hd

theorem rising_erase {m : Memory} (off : Nat) (h : cellsRising m = true) : cellsRising (Memory.erase m off) = true := by
  unfold Memory.erase
  induction m with
  | nil => rfl
  | cons c rest ih =>
    simp only [cellsRising, Bool.and_eq_true, List.all_eq_true, decide_eq_true_eq] at h
    rw [List.filter_cons]
    split
    · simp only [cellsRising, Bool.and_eq_true, List.all_eq_true, decide_eq_true_eq]
      exact ⟨fun d hd => h.1 d (List.mem_of_mem_filter hd), ih h.2⟩
    · exact ih h.2

theorem wf_iff (init : RamInit) (size : Nat) (m : Memory) :
    Memory.wf init size m = true ↔
      cellsRising m = true ∧ ∀ c ∈ m, c.1 < size ∧ unlisted init c.1 ≠ some c.2 := by
  simp [Memory.wf]

/-- Every write keeps the canonical form. -/
theorem wf_store {init : RamInit} {size : Nat} {m : Memory} (off : Nat) (v : Byte) (hoff : off < size)
    (h : Memory.wf init size m = true) : Memory.wf init size (Memory.store init m off v) = true := by
  rw [wf_iff] at h ⊢
  unfold Memory.store
  split <;> rename_i hu
  · exact ⟨rising_erase off h.1, fun c hc => h.2 c (List.mem_of_mem_filter hc)⟩
  · refine ⟨rising_insert off v h.1, fun c hc => ?_⟩
    rcases mem_insert hc with rfl | hc
    · exact ⟨hoff, hu⟩
    · exact h.2 c hc

end Sys2Proof.Laws
end

