-- ==== Sys2Proof/Laws/Device.lean ====
section
/-! SUPPORT. The laws of a described device: its store moves on by one handler for each event, and keeps the canonical form. -/

namespace Sys2Proof.Laws

open Sys2Proof.Machine

theorem replay_append (d : DeviceProgram) (k : Nat) (start : Word) (past log : List DeviceEvent) (e : DeviceEvent) (m : Memory) :
    d.replay k start past (log ++ [e]) m = d.afterEvent k start (past ++ log) e (d.replay k start past log m) := by
  induction log generalizing past m with
  | nil => simp [DeviceProgram.replay]
  | cons f rest ih => simp [DeviceProgram.replay, ih]

/-- One more event: its handler runs on the store as it stood. -/
theorem contents_append (d : DeviceProgram) (k : Nat) (start : Word) (log : List DeviceEvent) (e : DeviceEvent) :
    d.contents k start (log ++ [e]) = d.afterEvent k start log e (d.contents k start log) :=
  replay_append d k start [] log e []

/-- A statement keeps the canonical form of the store. -/
theorem run_wf (c : DeviceContext) (size : Nat) (st : DeviceStmt) {m : Memory} (h : Memory.wf c.init size m = true) :
    Memory.wf c.init size (st.run c size m) = true := by
  induction st generalizing m with
  | skip => exact h
  | put index v =>
    unfold DeviceStmt.run
    split
    · exact wf_store _ _ ‹_› h
    · exact h
  | seq first second ihf ihs => exact ihs (ihf h)
  | cond b t e iht ihe =>
    unfold DeviceStmt.run
    split
    · exact ihe h
    · exact iht h
  | loop count body ih =>
    unfold DeviceStmt.run
    generalize count.eval c m = n
    induction n generalizing m with
    | zero => exact h
    | succ n ihn => exact ihn (ih h)

/-- The store of a described device is in canonical form, whatever the device has seen. -/
theorem contents_wf (d : DeviceProgram) (k : Nat) (start : Word) (log : List DeviceEvent) :
    Memory.wf d.init d.size (d.contents k start log) = true := by
  induction log using List.reverseRecOn with
  | nil => simp [DeviceProgram.contents, DeviceProgram.replay, Memory.wf, cellsRising]
  | append_singleton log e ih =>
    rw [contents_append]
    exact run_wf (d.context k start log (eventAddr start e) (eventByte e)) d.size (d.handler e) ih

end Sys2Proof.Laws
end

