-- ==== Sys2Proof/Laws/Flags.lean ====
section
/-! SUPPORT. What the flag operations do to each bit of P. -/

namespace Sys2Proof.Laws

open Sys2Proof.Machine

theorem flagMask_getLsbD (f : Flag) (k : Nat) (hk : k < 8) : (flagMask f).getLsbD k = decide (k = flagBit f) := by
  cases f <;> interval_cases k <;> rfl

theorem flagSet_getLsbD (p : Byte) (f : Flag) (b : Bool) (k : Nat) (hk : k < 8) :
    (flagSet p f b).getLsbD k = if k = flagBit f then b else p.getLsbD k := by
  have hm := flagMask_getLsbD f k hk
  cases b <;> by_cases h : k = flagBit f <;> simp_all [flagSet]

theorem nzUpdate_getLsbD (p v : Byte) (k : Nat) (hk : k < 8) :
    (nzUpdate p v).getLsbD k = if k = 1 then v == 0#8 else if k = 7 then v.getLsbD 7 else p.getLsbD k := by
  unfold nzUpdate
  rw [flagSet_getLsbD _ _ _ _ hk, flagSet_getLsbD _ _ _ _ hk]
  by_cases h1 : k = 1 <;> by_cases h7 : k = 7 <;> simp [flagBit, h1, h7]

theorem compareFlags_getLsbD (p r m : Byte) (k : Nat) (hk : k < 8) :
    (compareFlags p r m).getLsbD k =
      if k = 0 then decide (m.toNat ≤ r.toNat) else if k = 1 then r == 0#8 else if k = 7 then r.getLsbD 7
      else p.getLsbD k := by
  unfold compareFlags
  rw [nzUpdate_getLsbD _ _ _ hk, flagSet_getLsbD _ _ _ _ hk]
  by_cases h0 : k = 0
  · simp [h0, flagBit]
  · simp [h0, flagBit]

end Sys2Proof.Laws
end

