-- ==== Sys2Proof/Laws/Space.lean ====
section
/-! SUPPORT. The laws of regions and the first-match lookup: read after write, the canonical form, the fixed ranges, and what
each access leaves alone. -/

namespace Sys2Proof.Laws

open Sys2Proof.Machine

/-! Regions. -/

theorem inRange_iff (r : Region) (a : Word) :
    r.inRange a = true ↔ r.start.toNat ≤ a.toNat ∧ a.toNat < r.start.toNat + r.size := by
  simp [Region.inRange]

theorem accept_decl (r : Region) (acc : BusAccess) : (r.accept acc).decl = r.decl := by
  unfold Region.accept Region.decl
  cases hb : r.body <;> cases acc <;> simp [hb]

theorem accept_inRange (r : Region) (acc : BusAccess) (a : Word) : (r.accept acc).inRange a = r.inRange a := by
  unfold Region.accept Region.inRange
  cases r.body <;> cases acc <;> rfl

theorem accept_isRam (r : Region) (acc : BusAccess) : (r.accept acc).isRam = r.isRam := by
  unfold Region.accept Region.isRam
  cases hb : r.body <;> cases acc <;> simp [hb]

theorem accept_wf {r : Region} {acc : BusAccess} (hr : r.inRange (accessAddr acc) = true) (h : r.wf = true) :
    (r.accept acc).wf = true := by
  rw [inRange_iff] at hr
  unfold Region.accept Region.wf at *
  cases hb : r.body with
  | device behaviour log => simp
  | ram init mem =>
    rw [hb] at h
    cases acc with
    | read a v => simpa [hb] using h
    | write a v =>
      have hoff : r.offset a < r.size := by
        simp only [accessAddr] at hr
        simp only [Region.offset]
        omega
      exact wf_store _ v hoff h

/-- A RAM region reads back what was written, and every other byte of it as before. -/
theorem byteAt_write {r : Region} (k : Nat) (a b : Word) (v : Byte) (hram : r.isRam = true)
    (ha : r.inRange a = true) (hb : r.inRange b = true) :
    (r.accept (.write a v)).byteAt k b = if b = a then v else r.byteAt k b := by
  rw [inRange_iff] at ha hb
  cases hbody : r.body with
  | device behaviour log => simp [Region.isRam, hbody] at hram
  | ram init mem =>
    have hoff : (r.offset b = r.offset a) ↔ b = a := by
      constructor
      · intro h
        apply BitVec.eq_of_toNat_eq
        simp only [Region.offset] at h
        omega
      · rintro rfl; rfl
    have hl : (r.accept (.write a v)).byteAt k b = ramByte k init (Memory.store init mem (r.offset a) v) (r.offset b) := by
      simp [Region.byteAt, Region.accept, hbody, Region.offset]
    have hr : r.byteAt k b = ramByte k init mem (r.offset b) := by
      simp [Region.byteAt, hbody]
    rw [hl, hr, ramByte_store]
    by_cases h : b = a
    · simp [h]
    · simp [h, hoff]

theorem accept_read_ram {r : Region} (a : Word) (v : Byte) (hram : r.isRam = true) : r.accept (.read a v) = r := by
  cases hb : r.body with
  | device behaviour log => simp [Region.isRam, hb] at hram
  | ram init mem => simp [Region.accept, hb]

/-! The list of regions. -/

@[simp] theorem deliver_nil (acc : BusAccess) : deliver [] acc = [] := rfl

theorem deliver_decls (rs : List Region) (acc : BusAccess) :
    (deliver rs acc).map Region.decl = rs.map Region.decl := by
  induction rs with
  | nil => rfl
  | cons r rest ih =>
    unfold deliver
    split
    · simp [accept_decl]
    · simp [ih]

theorem deliver_wf {rs : List Region} (acc : BusAccess) (h : rs.all Region.wf = true) :
    (deliver rs acc).all Region.wf = true := by
  induction rs with
  | nil => rfl
  | cons r rest ih =>
    simp only [List.all_cons, Bool.and_eq_true] at h
    unfold deliver
    split <;> rename_i hr
    · simp [accept_wf hr h.1, h.2]
    · simp [h.1, ih h.2]

theorem deliver_append_miss {pre : List Region} (rs : List Region) (acc : BusAccess)
    (h : ∀ q ∈ pre, q.inRange (accessAddr acc) = false) : deliver (pre ++ rs) acc = pre ++ deliver rs acc := by
  induction pre with
  | nil => rfl
  | cons q pre ih =>
    have hq := h q List.mem_cons_self
    rw [List.cons_append, deliver]
    simp only [hq, Bool.false_eq_true, if_false, List.cons_append]
    rw [ih fun q' hq' => h q' (List.mem_cons_of_mem _ hq')]

theorem peekFrom_append_miss {pre : List Region} (k : Nat) (rs : List Region) (a : Word)
    (h : ∀ q ∈ pre, q.inRange a = false) : peekFrom k (pre ++ rs) a = peekFrom (k + pre.length) rs a := by
  induction pre generalizing k with
  | nil => rfl
  | cons q pre ih =>
    have hq := h q List.mem_cons_self
    rw [List.cons_append, peekFrom]
    simp only [hq, Bool.false_eq_true, if_false]
    rw [ih (k + 1) fun q' hq' => h q' (List.mem_cons_of_mem _ hq')]
    congr 1
    simp [Nat.add_comm, Nat.add_left_comm]

theorem regionAt_cons (r : Region) (rest : List Region) (a : Word) :
    regionAt (r :: rest) a = if r.inRange a then some r else regionAt rest a := by
  unfold regionAt
  rw [List.find?_cons]
  cases r.inRange a <;> rfl

/-- Nobody answers: the access does nothing. -/
theorem deliver_unmapped {rs : List Region} {acc : BusAccess} (h : regionAt rs (accessAddr acc) = none) :
    deliver rs acc = rs := by
  induction rs with
  | nil => rfl
  | cons r rest ih =>
    rw [regionAt_cons] at h
    by_cases hr : r.inRange (accessAddr acc) = true
    · simp [hr] at h
    · simp only [Bool.not_eq_true] at hr
      simp only [hr, Bool.false_eq_true, if_false] at h
      simp [deliver, hr, ih h]

/-- Nobody answers: open bus. -/
theorem peekFrom_unmapped {rs : List Region} {a : Word} (k : Nat) (h : regionAt rs a = none) :
    peekFrom k rs a = openBus := by
  induction rs generalizing k with
  | nil => rfl
  | cons r rest ih =>
    rw [regionAt_cons] at h
    by_cases hr : r.inRange a = true
    · simp [hr] at h
    · simp only [Bool.not_eq_true] at hr
      simp only [hr, Bool.false_eq_true, if_false] at h
      simp [peekFrom, hr, ih _ h]

/-- A read that RAM or nobody answers changes nothing. -/
theorem deliver_read_plain {rs : List Region} {a : Word} (v : Byte)
    (h : (regionAt rs a).any (fun r => !r.isRam) = false) : deliver rs (.read a v) = rs := by
  induction rs with
  | nil => rfl
  | cons r rest ih =>
    rw [regionAt_cons] at h
    by_cases hr : r.inRange a = true
    · simp only [hr, if_true, Option.any_some, Bool.not_eq_false'] at h
      simp [deliver, accessAddr, hr, accept_read_ram a v h]
    · simp only [Bool.not_eq_true] at hr
      simp only [hr, Bool.false_eq_true, if_false] at h
      simp [deliver, accessAddr, hr, ih h]

/-- Which kind of region answers at an address never changes. -/
theorem regionAt_deliver_isRam (rs : List Region) (acc : BusAccess) (b : Word) :
    (regionAt (deliver rs acc) b).map Region.isRam = (regionAt rs b).map Region.isRam := by
  induction rs with
  | nil => rfl
  | cons r rest ih =>
    unfold deliver
    split
    · rw [regionAt_cons, regionAt_cons, accept_inRange]
      split <;> simp [accept_isRam]
    · rw [regionAt_cons, regionAt_cons]
      split
      · rfl
      · exact ih

/-- A write that RAM answers is read back. -/
theorem peekFrom_write_same {rs : List Region} {a : Word} (k : Nat) (v : Byte)
    (h : (regionAt rs a).any Region.isRam = true) : peekFrom k (deliver rs (.write a v)) a = v := by
  induction rs generalizing k with
  | nil => simp [regionAt] at h
  | cons r rest ih =>
    rw [regionAt_cons] at h
    by_cases hr : r.inRange a = true
    · simp only [hr, if_true, Option.any_some] at h
      simp [deliver, accessAddr, hr, peekFrom, accept_inRange, byteAt_write k a a v h hr hr]
    · simp only [Bool.not_eq_true] at hr
      simp only [hr, Bool.false_eq_true, if_false] at h
      simp [deliver, accessAddr, hr, peekFrom, ih _ h]

/-- An access leaves every byte of RAM and open bus as it was, but the one byte a write names. -/
theorem peekFrom_deliver_other {rs : List Region} {acc : BusAccess} {b : Word} (k : Nat)
    (hplain : (regionAt rs b).any (fun r => !r.isRam) = false)
    (hother : ∀ a v, acc = .write a v → b ≠ a) : peekFrom k (deliver rs acc) b = peekFrom k rs b := by
  induction rs generalizing k with
  | nil => rfl
  | cons r rest ih =>
    rw [regionAt_cons] at hplain
    by_cases hb : r.inRange b = true
    · simp only [hb, if_true, Option.any_some, Bool.not_eq_false'] at hplain
      by_cases ha : r.inRange (accessAddr acc) = true
      · simp only [deliver, ha, if_true, peekFrom, accept_inRange, hb]
        cases acc with
        | read a v => rw [accept_read_ram a v hplain]
        | write a v => rw [byteAt_write k a b v hplain ha hb, if_neg (hother a v rfl)]
      · simp only [Bool.not_eq_true] at ha
        simp [deliver, ha, peekFrom, hb]
    · simp only [Bool.not_eq_true] at hb
      simp only [hb, Bool.false_eq_true, if_false] at hplain
      by_cases ha : r.inRange (accessAddr acc) = true
      · simp [deliver, ha, peekFrom, accept_inRange, hb]
      · simp only [Bool.not_eq_true] at ha
        simp [deliver, ha, peekFrom, hb, ih _ hplain]

theorem construct_decl (r : RegionDecl) : (constructRegion r).decl = r := by
  unfold constructRegion Region.decl
  cases r with
  | mk start size kind => cases kind <;> rfl

/-- A constructed Address Space is in canonical form, and its ranges and kinds are the host's. -/
theorem construct_wf (rs : List RegionDecl) : (rs.map constructRegion).all Region.wf = true := by
  simp only [List.all_map, List.all_eq_true, Function.comp_apply]
  intro r _
  unfold constructRegion Region.wf
  cases r.kind <;> simp [Memory.wf, cellsRising]

theorem construct_decls (rs : List RegionDecl) : (rs.map constructRegion).map Region.decl = rs := by
  rw [List.map_map]
  conv_rhs => rw [← List.map_id rs]
  exact List.map_congr_left fun r _ => construct_decl r

end Sys2Proof.Laws
end

