-- ==== Sys2Proof/Laws/State.lean ====
section
/-! SUPPORT. One lemma per field per update of State, each true by rfl, so that no proof unfolds a record update; and the
composite updates written over the primitive ones. -/

namespace Sys2Proof.Laws

open Sys2Proof.Machine

variable (s : State)

@[simp] theorem setA_a (v : Byte) : (s.setA v).a = v := rfl
@[simp] theorem setA_x (v : Byte) : (s.setA v).x = s.x := rfl
@[simp] theorem setA_y (v : Byte) : (s.setA v).y = s.y := rfl
@[simp] theorem setA_sp (v : Byte) : (s.setA v).sp = s.sp := rfl
@[simp] theorem setA_p (v : Byte) : (s.setA v).p = s.p := rfl
@[simp] theorem setA_pc (v : Byte) : (s.setA v).pc = s.pc := rfl
@[simp] theorem setA_regions (v : Byte) : (s.setA v).regions = s.regions := rfl
@[simp] theorem setA_fault (v : Byte) : (s.setA v).fault = s.fault := rfl
@[simp] theorem setA_refused (v : Byte) : (s.setA v).refused = s.refused := rfl
@[simp] theorem setA_cfg (v : Byte) : (s.setA v).cfg = s.cfg := rfl
@[simp] theorem setA_bus (v : Byte) : (s.setA v).bus = s.bus := rfl
@[simp] theorem setA_peek (v : Byte) (addr' : Word) : (s.setA v).peek addr' = s.peek addr' := rfl

@[simp] theorem setX_a (v : Byte) : (s.setX v).a = s.a := rfl
@[simp] theorem setX_x (v : Byte) : (s.setX v).x = v := rfl
@[simp] theorem setX_y (v : Byte) : (s.setX v).y = s.y := rfl
@[simp] theorem setX_sp (v : Byte) : (s.setX v).sp = s.sp := rfl
@[simp] theorem setX_p (v : Byte) : (s.setX v).p = s.p := rfl
@[simp] theorem setX_pc (v : Byte) : (s.setX v).pc = s.pc := rfl
@[simp] theorem setX_regions (v : Byte) : (s.setX v).regions = s.regions := rfl
@[simp] theorem setX_fault (v : Byte) : (s.setX v).fault = s.fault := rfl
@[simp] theorem setX_refused (v : Byte) : (s.setX v).refused = s.refused := rfl
@[simp] theorem setX_cfg (v : Byte) : (s.setX v).cfg = s.cfg := rfl
@[simp] theorem setX_bus (v : Byte) : (s.setX v).bus = s.bus := rfl
@[simp] theorem setX_peek (v : Byte) (addr' : Word) : (s.setX v).peek addr' = s.peek addr' := rfl

@[simp] theorem setY_a (v : Byte) : (s.setY v).a = s.a := rfl
@[simp] theorem setY_x (v : Byte) : (s.setY v).x = s.x := rfl
@[simp] theorem setY_y (v : Byte) : (s.setY v).y = v := rfl
@[simp] theorem setY_sp (v : Byte) : (s.setY v).sp = s.sp := rfl
@[simp] theorem setY_p (v : Byte) : (s.setY v).p = s.p := rfl
@[simp] theorem setY_pc (v : Byte) : (s.setY v).pc = s.pc := rfl
@[simp] theorem setY_regions (v : Byte) : (s.setY v).regions = s.regions := rfl
@[simp] theorem setY_fault (v : Byte) : (s.setY v).fault = s.fault := rfl
@[simp] theorem setY_refused (v : Byte) : (s.setY v).refused = s.refused := rfl
@[simp] theorem setY_cfg (v : Byte) : (s.setY v).cfg = s.cfg := rfl
@[simp] theorem setY_bus (v : Byte) : (s.setY v).bus = s.bus := rfl
@[simp] theorem setY_peek (v : Byte) (addr' : Word) : (s.setY v).peek addr' = s.peek addr' := rfl

@[simp] theorem setSp_a (v : Byte) : (s.setSp v).a = s.a := rfl
@[simp] theorem setSp_x (v : Byte) : (s.setSp v).x = s.x := rfl
@[simp] theorem setSp_y (v : Byte) : (s.setSp v).y = s.y := rfl
@[simp] theorem setSp_sp (v : Byte) : (s.setSp v).sp = v := rfl
@[simp] theorem setSp_p (v : Byte) : (s.setSp v).p = s.p := rfl
@[simp] theorem setSp_pc (v : Byte) : (s.setSp v).pc = s.pc := rfl
@[simp] theorem setSp_regions (v : Byte) : (s.setSp v).regions = s.regions := rfl
@[simp] theorem setSp_fault (v : Byte) : (s.setSp v).fault = s.fault := rfl
@[simp] theorem setSp_refused (v : Byte) : (s.setSp v).refused = s.refused := rfl
@[simp] theorem setSp_cfg (v : Byte) : (s.setSp v).cfg = s.cfg := rfl
@[simp] theorem setSp_bus (v : Byte) : (s.setSp v).bus = s.bus := rfl
@[simp] theorem setSp_peek (v : Byte) (addr' : Word) : (s.setSp v).peek addr' = s.peek addr' := rfl

@[simp] theorem setP_a (v : Byte) : (s.setP v).a = s.a := rfl
@[simp] theorem setP_x (v : Byte) : (s.setP v).x = s.x := rfl
@[simp] theorem setP_y (v : Byte) : (s.setP v).y = s.y := rfl
@[simp] theorem setP_sp (v : Byte) : (s.setP v).sp = s.sp := rfl
@[simp] theorem setP_p (v : Byte) : (s.setP v).p = v := rfl
@[simp] theorem setP_pc (v : Byte) : (s.setP v).pc = s.pc := rfl
@[simp] theorem setP_regions (v : Byte) : (s.setP v).regions = s.regions := rfl
@[simp] theorem setP_fault (v : Byte) : (s.setP v).fault = s.fault := rfl
@[simp] theorem setP_refused (v : Byte) : (s.setP v).refused = s.refused := rfl
@[simp] theorem setP_cfg (v : Byte) : (s.setP v).cfg = s.cfg := rfl
@[simp] theorem setP_bus (v : Byte) : (s.setP v).bus = s.bus := rfl
@[simp] theorem setP_peek (v : Byte) (addr' : Word) : (s.setP v).peek addr' = s.peek addr' := rfl

@[simp] theorem setPc_a (w : Word) : (s.setPc w).a = s.a := rfl
@[simp] theorem setPc_x (w : Word) : (s.setPc w).x = s.x := rfl
@[simp] theorem setPc_y (w : Word) : (s.setPc w).y = s.y := rfl
@[simp] theorem setPc_sp (w : Word) : (s.setPc w).sp = s.sp := rfl
@[simp] theorem setPc_p (w : Word) : (s.setPc w).p = s.p := rfl
@[simp] theorem setPc_pc (w : Word) : (s.setPc w).pc = w := rfl
@[simp] theorem setPc_regions (w : Word) : (s.setPc w).regions = s.regions := rfl
@[simp] theorem setPc_fault (w : Word) : (s.setPc w).fault = s.fault := rfl
@[simp] theorem setPc_refused (w : Word) : (s.setPc w).refused = s.refused := rfl
@[simp] theorem setPc_cfg (w : Word) : (s.setPc w).cfg = s.cfg := rfl
@[simp] theorem setPc_bus (w : Word) : (s.setPc w).bus = s.bus := rfl
@[simp] theorem setPc_peek (w : Word) (addr' : Word) : (s.setPc w).peek addr' = s.peek addr' := rfl

@[simp] theorem access_a (acc : BusAccess) : (s.access acc).a = s.a := rfl
@[simp] theorem access_x (acc : BusAccess) : (s.access acc).x = s.x := rfl
@[simp] theorem access_y (acc : BusAccess) : (s.access acc).y = s.y := rfl
@[simp] theorem access_sp (acc : BusAccess) : (s.access acc).sp = s.sp := rfl
@[simp] theorem access_p (acc : BusAccess) : (s.access acc).p = s.p := rfl
@[simp] theorem access_pc (acc : BusAccess) : (s.access acc).pc = s.pc := rfl
@[simp] theorem access_regions (acc : BusAccess) : (s.access acc).regions = deliver s.regions acc := rfl
@[simp] theorem access_fault (acc : BusAccess) : (s.access acc).fault = s.fault := rfl
@[simp] theorem access_refused (acc : BusAccess) : (s.access acc).refused = s.refused := rfl
@[simp] theorem access_cfg (acc : BusAccess) : (s.access acc).cfg = s.cfg := rfl
@[simp] theorem access_bus (acc : BusAccess) : (s.access acc).bus = s.bus ++ [acc] := rfl

@[simp] theorem clearBus_a : (s.clearBus).a = s.a := rfl
@[simp] theorem clearBus_x : (s.clearBus).x = s.x := rfl
@[simp] theorem clearBus_y : (s.clearBus).y = s.y := rfl
@[simp] theorem clearBus_sp : (s.clearBus).sp = s.sp := rfl
@[simp] theorem clearBus_p : (s.clearBus).p = s.p := rfl
@[simp] theorem clearBus_pc : (s.clearBus).pc = s.pc := rfl
@[simp] theorem clearBus_regions : (s.clearBus).regions = s.regions := rfl
@[simp] theorem clearBus_fault : (s.clearBus).fault = s.fault := rfl
@[simp] theorem clearBus_refused : (s.clearBus).refused = s.refused := rfl
@[simp] theorem clearBus_cfg : (s.clearBus).cfg = s.cfg := rfl
@[simp] theorem clearBus_bus : (s.clearBus).bus = [] := rfl
@[simp] theorem clearBus_peek (addr' : Word) : (s.clearBus).peek addr' = s.peek addr' := rfl

@[simp] theorem recordFault_a (op : Byte) (addr : Word) : (s.recordFault op addr).a = s.a := rfl
@[simp] theorem recordFault_x (op : Byte) (addr : Word) : (s.recordFault op addr).x = s.x := rfl
@[simp] theorem recordFault_y (op : Byte) (addr : Word) : (s.recordFault op addr).y = s.y := rfl
@[simp] theorem recordFault_sp (op : Byte) (addr : Word) : (s.recordFault op addr).sp = s.sp := rfl
@[simp] theorem recordFault_p (op : Byte) (addr : Word) : (s.recordFault op addr).p = s.p := rfl
@[simp] theorem recordFault_pc (op : Byte) (addr : Word) : (s.recordFault op addr).pc = addr := rfl
@[simp] theorem recordFault_regions (op : Byte) (addr : Word) : (s.recordFault op addr).regions = s.regions := rfl
@[simp] theorem recordFault_fault (op : Byte) (addr : Word) : (s.recordFault op addr).fault = some (op, addr) := rfl
@[simp] theorem recordFault_refused (op : Byte) (addr : Word) : (s.recordFault op addr).refused = s.refused := rfl
@[simp] theorem recordFault_cfg (op : Byte) (addr : Word) : (s.recordFault op addr).cfg = s.cfg := rfl
@[simp] theorem recordFault_bus (op : Byte) (addr : Word) : (s.recordFault op addr).bus = s.bus := rfl
@[simp] theorem recordFault_peek (op : Byte) (addr : Word) (addr' : Word) : (s.recordFault op addr).peek addr' = s.peek addr' := rfl

@[simp] theorem markRefused_a (addr : Word) : (s.markRefused addr).a = s.a := rfl
@[simp] theorem markRefused_x (addr : Word) : (s.markRefused addr).x = s.x := rfl
@[simp] theorem markRefused_y (addr : Word) : (s.markRefused addr).y = s.y := rfl
@[simp] theorem markRefused_sp (addr : Word) : (s.markRefused addr).sp = s.sp := rfl
@[simp] theorem markRefused_p (addr : Word) : (s.markRefused addr).p = s.p := rfl
@[simp] theorem markRefused_pc (addr : Word) : (s.markRefused addr).pc = addr := rfl
@[simp] theorem markRefused_regions (addr : Word) : (s.markRefused addr).regions = s.regions := rfl
@[simp] theorem markRefused_fault (addr : Word) : (s.markRefused addr).fault = s.fault := rfl
@[simp] theorem markRefused_refused (addr : Word) : (s.markRefused addr).refused = true := rfl
@[simp] theorem markRefused_cfg (addr : Word) : (s.markRefused addr).cfg = s.cfg := rfl
@[simp] theorem markRefused_bus (addr : Word) : (s.markRefused addr).bus = s.bus := rfl
@[simp] theorem markRefused_peek (addr : Word) (addr' : Word) : (s.markRefused addr).peek addr' = s.peek addr' := rfl

@[simp] theorem push_a (v : Byte) : (s.push v).a = s.a := rfl
@[simp] theorem push_x (v : Byte) : (s.push v).x = s.x := rfl
@[simp] theorem push_y (v : Byte) : (s.push v).y = s.y := rfl
@[simp] theorem push_sp (v : Byte) : (s.push v).sp = s.sp - 1#8 := rfl
@[simp] theorem push_p (v : Byte) : (s.push v).p = s.p := rfl
@[simp] theorem push_pc (v : Byte) : (s.push v).pc = s.pc := rfl
@[simp] theorem push_regions (v : Byte) : (s.push v).regions = deliver s.regions (.write (stackAddr s.sp) v) := rfl
@[simp] theorem push_fault (v : Byte) : (s.push v).fault = s.fault := rfl
@[simp] theorem push_refused (v : Byte) : (s.push v).refused = s.refused := rfl
@[simp] theorem push_cfg (v : Byte) : (s.push v).cfg = s.cfg := rfl
@[simp] theorem push_bus (v : Byte) : (s.push v).bus = s.bus ++ [.write (stackAddr s.sp) v] := rfl

@[simp] theorem setFlag_eq (f : Flag) (b : Bool) : s.setFlag f b = s.setP (flagSet s.p f b) := rfl
@[simp] theorem setNZ_eq (v : Byte) : s.setNZ v = s.setP (nzUpdate s.p v) := rfl
@[simp] theorem compare_eq (r m : Byte) : s.compare r m = s.setP (compareFlags s.p r m) := rfl
@[simp] theorem loadA_eq (v : Byte) : s.loadA v = (s.setA v).setP (nzUpdate s.p v) := rfl
@[simp] theorem loadX_eq (v : Byte) : s.loadX v = (s.setX v).setP (nzUpdate s.p v) := rfl
@[simp] theorem loadY_eq (v : Byte) : s.loadY v = (s.setY v).setP (nzUpdate s.p v) := rfl
@[simp] theorem memRead_fst (addr : Word) : (s.memRead addr).1 = s.peek addr := rfl
@[simp] theorem memRead_snd (addr : Word) : (s.memRead addr).2 = s.access (.read addr (s.peek addr)) := rfl
@[simp] theorem memWrite_eq (addr : Word) (v : Byte) : s.memWrite addr v = s.access (.write addr v) := rfl
@[simp] theorem pull_fst : s.pull.1 = s.peek (stackAddr (s.sp + 1#8)) := rfl
@[simp] theorem pull_snd :
    s.pull.2 = (s.setSp (s.sp + 1#8)).access (.read (stackAddr (s.sp + 1#8)) (s.peek (stackAddr (s.sp + 1#8)))) := rfl
@[simp] theorem fetch8_fst : s.fetch8.1 = s.peek s.pc := rfl
@[simp] theorem fetch8_snd : s.fetch8.2 = (s.access (.read s.pc (s.peek s.pc))).setPc (s.pc + 1#16) := rfl

end Sys2Proof.Laws
end

