-- ==== Sys2Proof/Laws/Ops.lean ====
section
/-! SUPPORT. What the shared operations of State can do, said once each: accesses, the stack, the two-byte reads, the reset
operation. -/

namespace Sys2Proof.Laws

open Sys2Proof.Machine

/-! Byte order. -/

theorem concat16_toNat (hi lo : Byte) : (concat16 hi lo).toNat = hi.toNat * 256 + lo.toNat := by
  unfold concat16
  rw [BitVec.toNat_append, Nat.shiftLeft_eq, Nat.mul_comm, ← Nat.two_pow_add_eq_or_of_lt lo.isLt, Nat.mul_comm]

theorem loByte_toNat (w : Word) : (loByte w).toNat = w.toNat % 256 := by simp [loByte]

theorem hiByte_toNat (w : Word) : (hiByte w).toNat = w.toNat / 256 := by
  have h := w.isLt
  simp [hiByte, Nat.shiftRight_eq_div_pow]
  omega

theorem concat16_hi_lo (w : Word) : concat16 (hiByte w) (loByte w) = w := by
  apply BitVec.eq_of_toNat_eq
  rw [concat16_toNat, hiByte_toNat, loByte_toNat]
  omega

theorem zext16_toNat (b : Byte) : (zext16 b).toNat = b.toNat := by
  have h := b.isLt
  simp [zext16]
  omega

theorem stackAddr_toNat (sp : Byte) : (stackAddr sp).toNat = 256 + sp.toNat := by
  have h := sp.isLt
  simp [stackAddr, zext16_toNat]
  omega

theorem stackAddr_inj {p q : Byte} (h : stackAddr p = stackAddr q) : p = q := by
  apply BitVec.eq_of_toNat_eq
  have := congrArg BitVec.toNat h
  rw [stackAddr_toNat, stackAddr_toNat] at this
  omega

/-! What answers at an address does not change. -/

theorem access_kind (s : State) (acc : BusAccess) (a : Word) :
    (regionAt (s.access acc).regions a).map Region.isRam = (regionAt s.regions a).map Region.isRam :=
  regionAt_deliver_isRam s.regions acc a

theorem any_of_map_isRam {o o' : Option Region} (h : o.map Region.isRam = o'.map Region.isRam) :
    o.any Region.isRam = o'.any Region.isRam ∧ o.any (fun r => !r.isRam) = o'.any (fun r => !r.isRam) ∧
      o.isNone = o'.isNone := by
  cases o <;> cases o' <;> simp_all

@[simp] theorem access_ramAt (s : State) (acc : BusAccess) (a : Word) : (s.access acc).ramAt a = s.ramAt a :=
  (any_of_map_isRam (access_kind s acc a)).1

@[simp] theorem access_deviceAt (s : State) (acc : BusAccess) (a : Word) : (s.access acc).deviceAt a = s.deviceAt a :=
  (any_of_map_isRam (access_kind s acc a)).2.1

@[simp] theorem access_unmappedAt (s : State) (acc : BusAccess) (a : Word) :
    (s.access acc).unmappedAt a = s.unmappedAt a :=
  (any_of_map_isRam (access_kind s acc a)).2.2

theorem ramAt_not_deviceAt {s : State} {a : Word} (h : s.ramAt a = true) : s.deviceAt a = false := by
  unfold State.ramAt State.deviceAt at *
  cases hr : regionAt s.regions a <;> simp_all

/-! One access. -/

theorem peek_write_same {s : State} {a : Word} (v : Byte) (h : s.ramAt a = true) :
    (s.access (.write a v)).peek a = v :=
  peekFrom_write_same 0 v h

theorem peek_write_other {s : State} {a b : Word} (v : Byte) (h : s.deviceAt b = false) (hne : b ≠ a) :
    (s.access (.write a v)).peek b = s.peek b :=
  peekFrom_deliver_other 0 h fun _ _ heq => by cases heq; exact hne

theorem peek_read_other {s : State} {b : Word} (a : Word) (v : Byte) (h : s.deviceAt b = false) :
    (s.access (.read a v)).peek b = s.peek b :=
  peekFrom_deliver_other 0 h fun _ _ heq => by cases heq

theorem peek_unmapped {s : State} {a : Word} (h : s.unmappedAt a = true) : s.peek a = 0xFF#8 :=
  peekFrom_unmapped 0 (by simpa [State.unmappedAt] using h)

theorem access_unmapped {s : State} {acc : BusAccess} (h : s.unmappedAt (accessAddr acc) = true) :
    (s.access acc).regions = s.regions :=
  deliver_unmapped (by simpa [State.unmappedAt] using h)

/-- A read of RAM or open bus changes only the list of accesses. -/
theorem access_read_plain {s : State} {a : Word} (v : Byte) (h : s.deviceAt a = false) :
    s.access (.read a v) = { s with bus := s.bus ++ [.read a v] } := by
  unfold State.access
  rw [deliver_read_plain v h]

theorem bytesKept_refl (s : State) : BytesKept s s [] := fun _ _ _ => rfl

theorem bytesKept_read (s : State) (a : Word) (v : Byte) : BytesKept s (s.access (.read a v)) [] :=
  fun _ _ hd => peek_read_other a v hd

theorem bytesKept_write (s : State) (a : Word) (v : Byte) : BytesKept s (s.access (.write a v)) [a] :=
  fun _ hb hd => peek_write_other v hd (by simpa using hb)

/-- Bytes kept by one change and then by another. -/
theorem bytesKept_trans {s t u : State} {l l' : List Word} (h : BytesKept s t l) (h' : BytesKept t u l')
    (hk : ∀ a, t.deviceAt a = s.deviceAt a) : BytesKept s u (l ++ l') := fun a ha hd => by
  simp only [List.mem_append, not_or] at ha
  rw [h' a ha.2 (by rw [hk, hd]), h a ha.1 hd]

/-! The stack. -/

theorem sp_dec_toNat (b : Byte) : (b - 1#8).toNat = (b.toNat + 255) % 256 := by
  rw [BitVec.toNat_sub]
  simp
  omega

theorem sp_inc_toNat (b : Byte) : (b + 1#8).toNat = (b.toNat + 1) % 256 := by
  rw [BitVec.toNat_add]
  simp

/-- Two stack bytes in a row are two addresses. -/
theorem stackAddr_dec_ne (b : Byte) : stackAddr b ≠ stackAddr (b - 1#8) := fun h => by
  have h' := congrArg BitVec.toNat (stackAddr_inj h)
  rw [sp_dec_toNat] at h'
  have := b.isLt
  omega

@[simp] theorem setSp_deviceAt (s : State) (v : Byte) (a : Word) : (s.setSp v).deviceAt a = s.deviceAt a := rfl
@[simp] theorem push_deviceAt (s : State) (v : Byte) (a : Word) : (s.push v).deviceAt a = s.deviceAt a :=
  access_deviceAt s (.write (stackAddr s.sp) v) a
@[simp] theorem push_ramAt (s : State) (v : Byte) (a : Word) : (s.push v).ramAt a = s.ramAt a :=
  access_ramAt s (.write (stackAddr s.sp) v) a

/-- A pull from RAM or open bus changes S and the list of accesses only. -/
theorem pull_plain {s : State} (h : s.deviceAt (stackAddr (s.sp + 1#8)) = false) :
    s.pull = (s.peek (stackAddr (s.sp + 1#8)),
      { s with
        sp := s.sp + 1#8
        bus := s.bus ++ [.read (stackAddr (s.sp + 1#8)) (s.peek (stackAddr (s.sp + 1#8)))] }) := by
  have h' : (s.setSp (s.sp + 1#8)).deviceAt (stackAddr (s.sp + 1#8)) = false := h
  show (_, (s.setSp (s.sp + 1#8)).access _) = _
  rw [access_read_plain _ h']
  rfl

/-- The byte a push leaves where RAM answers. -/
theorem push_peek_same {s : State} (v : Byte) (h : s.ramAt (stackAddr s.sp) = true) :
    (s.push v).peek (stackAddr s.sp) = v :=
  peek_write_same v h

theorem push_peek_other {s : State} {b : Word} (v : Byte) (h : s.deviceAt b = false) (hne : b ≠ stackAddr s.sp) :
    (s.push v).peek b = s.peek b :=
  peek_write_other (s := s) v h hne

/-- What JSR's two pushes leave, where RAM answers at both: the high byte at the old S, the low byte below it. -/
theorem pushReturn_peek {s : State} (h : s.ramAt (stackAddr s.sp) = true) (h' : s.ramAt (stackAddr (s.sp - 1#8)) = true) :
    s.pushReturn.peek (stackAddr s.sp) = hiByte (s.pc - 1#16) ∧
      s.pushReturn.peek (stackAddr (s.sp - 1#8)) = loByte (s.pc - 1#16) := by
  unfold State.pushReturn
  constructor
  · rw [push_peek_other _ (by simpa using ramAt_not_deviceAt h) (stackAddr_dec_ne s.sp), push_peek_same _ h]
  · exact push_peek_same (s := s.push (hiByte (s.pc - 1#16))) _ (by simpa using h')

/-- RTS's two pulls from RAM or open bus: the address, low byte first, and S moved up by two. -/
theorem pullReturn_plain {s : State} (h : s.deviceAt (stackAddr (s.sp + 1#8)) = false)
    (h' : s.deviceAt (stackAddr (s.sp + 1#8 + 1#8)) = false) :
    s.pullReturn.1 = concat16 (s.peek (stackAddr (s.sp + 1#8 + 1#8))) (s.peek (stackAddr (s.sp + 1#8))) ∧
      s.pullReturn.2 =
        { s with
          sp := s.sp + 1#8 + 1#8
          bus := s.bus ++ [.read (stackAddr (s.sp + 1#8)) (s.peek (stackAddr (s.sp + 1#8))),
            .read (stackAddr (s.sp + 1#8 + 1#8)) (s.peek (stackAddr (s.sp + 1#8 + 1#8)))] } := by
  have h1 := pull_plain h
  have h2 : s.pull.2.pull = _ := pull_plain (s := s.pull.2) (by rw [h1]; exact h')
  unfold State.pullReturn
  rw [h2, h1]
  refine ⟨rfl, ?_⟩
  simp only [List.append_assoc, List.cons_append, List.nil_append]
  rfl

/-! Sequences of accesses. -/

theorem foldl_deliver_decls (accs : List BusAccess) (rs : List Region) :
    (accs.foldl deliver rs).map Region.decl = rs.map Region.decl := by
  induction accs generalizing rs with
  | nil => rfl
  | cons acc rest ih => rw [List.foldl_cons, ih, deliver_decls]

theorem foldl_deliver_wf (accs : List BusAccess) {rs : List Region} (h : rs.all Region.wf = true) :
    (accs.foldl deliver rs).all Region.wf = true := by
  induction accs generalizing rs with
  | nil => exact h
  | cons acc rest ih => exact ih (deliver_wf acc h)

/-- What a sequence of accesses leaves alone: every byte of RAM and open bus that none of its writes names. -/
theorem foldl_deliver_peek (accs : List BusAccess) {rs : List Region} {b : Word} (k : Nat)
    (hd : (regionAt rs b).any (fun r => !r.isRam) = false) (hb : ∀ v, .write b v ∉ accs) :
    peekFrom k (accs.foldl deliver rs) b = peekFrom k rs b := by
  induction accs generalizing rs with
  | nil => rfl
  | cons acc rest ih =>
    have hk := (any_of_map_isRam (regionAt_deliver_isRam rs acc b)).2.1
    rw [List.foldl_cons, ih (by rw [hk, hd]) fun v hv => hb v (List.mem_cons_of_mem _ hv)]
    exact peekFrom_deliver_other k hd fun a v heq hba => hb v (by rw [heq, hba]; exact List.mem_cons_self)

/-! Host writes. -/

theorem hostWriteByte_access (s : State) (a : Word) (v : Byte) :
    s.hostWriteByte a v = { s.access (.write a v) with bus := s.bus } := rfl

/-- A host write reaches regions only. -/
theorem hostWrite_eq (s : State) (a : Word) (bs : List Byte) :
    s.hostWrite a bs = { s with regions := (s.hostWrite a bs).regions } := by
  induction bs generalizing s a with
  | nil => rfl
  | cons b rest ih =>
    show (s.hostWriteByte a b).hostWrite (a + 1#16) rest = _
    rw [ih]
    rfl

/-! Reset. -/

/-- `State.reset` is power-on construction in the default configuration and one reset(). -/
theorem reset_eq_resetPort : State.reset = (State.construct Config.default).resetPort := by decide

theorem construct_memWf (c : Config) : (State.construct c).memWf = true := construct_wf c.regions

theorem resetPort_memWf {s : State} (h : s.memWf = true) : s.resetPort.memWf = true :=
  deliver_wf _ (deliver_wf _ h)

/-- The memory of the reset state is canonical: nothing is listed. -/
theorem reset_regions_wf : State.reset.regions.all Region.wf = true := construct_wf Config.default.regions

end Sys2Proof.Laws
end

