-- ==== Sys2Proof/Laws/PerInstr.lean ====
section
/-! SUPPORT. Per-instruction laws: for each constructor, its opcode's row is in the table with its mode and basis, that row builds
exactly this instruction from its operand bytes, and its length is the one its mode gives (30_encoding.md R81, R82, R83). -/

namespace Sys2Proof.Laws.TableRow

open Sys2Proof.Machine

/-- The row of the table an instruction comes from. -/
def Statement (i : Instr) : Prop :=
  ∃ row, lookupRow i.opcode = some row ∧ row.mode = i.mode ∧ row.basis = i.basis ∧
    (∀ rest, row.build.fromBytes i.opcode (i.operandBytes ++ rest) = .ok (i, rest)) ∧
    i.operandBytes.length + 1 = i.mode.length

/-- A row that takes no operand. -/
theorem of_implied {i : Instr} {op : Byte} {b : Basis} (h : lookupRow i.opcode = some ⟨op, .imp, b, .implied i⟩)
    (hm : i.mode = .imp) (hb : i.basis = b) (ho : i.operandBytes = []) : Statement i :=
  ⟨_, h, hm.symm, hb.symm, fun rest => by rw [ho]; rfl, by rw [ho, hm]; rfl⟩

/-- A row that takes one operand byte. -/
theorem of_byte {i : Instr} {op v : Byte} {m : Mode} {b : Basis} {f : Byte → Instr}
    (h : lookupRow i.opcode = some ⟨op, m, b, .byte f⟩) (hm : i.mode = m) (hb : i.basis = b) (ho : i.operandBytes = [v])
    (hf : f v = i) (hl : m.length = 2) : Statement i :=
  ⟨_, h, hm.symm, hb.symm, fun rest => by rw [ho, ← hf]; rfl, by rw [ho, hm, hl]; rfl⟩

/-- A row that takes two operand bytes. -/
theorem of_word {i : Instr} {op : Byte} {w : Word} {m : Mode} {b : Basis} {f : Word → Instr}
    (h : lookupRow i.opcode = some ⟨op, m, b, .word f⟩) (hm : i.mode = m) (hb : i.basis = b)
    (ho : i.operandBytes = [loByte w, hiByte w]) (hf : f w = i) (hl : m.length = 3) : Statement i :=
  ⟨_, h, hm.symm, hb.symm, fun rest => by
    rw [ho]
    show Except.ok (f (concat16 (hiByte w) (loByte w)), rest) = _
    rw [concat16_hi_lo, hf], by rw [ho, hm, hl]; rfl⟩

theorem ldaImm (v : Byte) : Statement (.ldaImm v) := of_byte rfl rfl rfl rfl rfl rfl
theorem ldaZp (v : Byte) : Statement (.ldaZp v) := of_byte rfl rfl rfl rfl rfl rfl
theorem ldaZpx (v : Byte) : Statement (.ldaZpx v) := of_byte rfl rfl rfl rfl rfl rfl
theorem ldaAbs (w : Word) : Statement (.ldaAbs w) := of_word rfl rfl rfl rfl rfl rfl
theorem ldaAbsx (w : Word) : Statement (.ldaAbsx w) := of_word rfl rfl rfl rfl rfl rfl
theorem ldaAbsy (w : Word) : Statement (.ldaAbsy w) := of_word rfl rfl rfl rfl rfl rfl
theorem ldxImm (v : Byte) : Statement (.ldxImm v) := of_byte rfl rfl rfl rfl rfl rfl
theorem ldxZp (v : Byte) : Statement (.ldxZp v) := of_byte rfl rfl rfl rfl rfl rfl
theorem ldxAbs (w : Word) : Statement (.ldxAbs w) := of_word rfl rfl rfl rfl rfl rfl
theorem ldxAbsy (w : Word) : Statement (.ldxAbsy w) := of_word rfl rfl rfl rfl rfl rfl
theorem ldyImm (v : Byte) : Statement (.ldyImm v) := of_byte rfl rfl rfl rfl rfl rfl
theorem ldyZp (v : Byte) : Statement (.ldyZp v) := of_byte rfl rfl rfl rfl rfl rfl
theorem ldyZpx (v : Byte) : Statement (.ldyZpx v) := of_byte rfl rfl rfl rfl rfl rfl
theorem ldyAbs (w : Word) : Statement (.ldyAbs w) := of_word rfl rfl rfl rfl rfl rfl
theorem ldyAbsx (w : Word) : Statement (.ldyAbsx w) := of_word rfl rfl rfl rfl rfl rfl
theorem staZp (v : Byte) : Statement (.staZp v) := of_byte rfl rfl rfl rfl rfl rfl
theorem staZpx (v : Byte) : Statement (.staZpx v) := of_byte rfl rfl rfl rfl rfl rfl
theorem staAbs (w : Word) : Statement (.staAbs w) := of_word rfl rfl rfl rfl rfl rfl
theorem staAbsx (w : Word) : Statement (.staAbsx w) := of_word rfl rfl rfl rfl rfl rfl
theorem staAbsy (w : Word) : Statement (.staAbsy w) := of_word rfl rfl rfl rfl rfl rfl
theorem stxZp (v : Byte) : Statement (.stxZp v) := of_byte rfl rfl rfl rfl rfl rfl
theorem stxAbs (w : Word) : Statement (.stxAbs w) := of_word rfl rfl rfl rfl rfl rfl
theorem styZp (v : Byte) : Statement (.styZp v) := of_byte rfl rfl rfl rfl rfl rfl
theorem styZpx (v : Byte) : Statement (.styZpx v) := of_byte rfl rfl rfl rfl rfl rfl
theorem styAbs (w : Word) : Statement (.styAbs w) := of_word rfl rfl rfl rfl rfl rfl
theorem cmpImm (v : Byte) : Statement (.cmpImm v) := of_byte rfl rfl rfl rfl rfl rfl
theorem cmpZp (v : Byte) : Statement (.cmpZp v) := of_byte rfl rfl rfl rfl rfl rfl
theorem cmpZpx (v : Byte) : Statement (.cmpZpx v) := of_byte rfl rfl rfl rfl rfl rfl
theorem cmpAbs (w : Word) : Statement (.cmpAbs w) := of_word rfl rfl rfl rfl rfl rfl
theorem cmpAbsx (w : Word) : Statement (.cmpAbsx w) := of_word rfl rfl rfl rfl rfl rfl
theorem cmpAbsy (w : Word) : Statement (.cmpAbsy w) := of_word rfl rfl rfl rfl rfl rfl
theorem cpxImm (v : Byte) : Statement (.cpxImm v) := of_byte rfl rfl rfl rfl rfl rfl
theorem cpxZp (v : Byte) : Statement (.cpxZp v) := of_byte rfl rfl rfl rfl rfl rfl
theorem cpxAbs (w : Word) : Statement (.cpxAbs w) := of_word rfl rfl rfl rfl rfl rfl
theorem cpyImm (v : Byte) : Statement (.cpyImm v) := of_byte rfl rfl rfl rfl rfl rfl
theorem cpyZp (v : Byte) : Statement (.cpyZp v) := of_byte rfl rfl rfl rfl rfl rfl
theorem cpyAbs (w : Word) : Statement (.cpyAbs w) := of_word rfl rfl rfl rfl rfl rfl
theorem pha : Statement .pha := of_implied rfl rfl rfl rfl
theorem php : Statement .php := of_implied rfl rfl rfl rfl
theorem pla : Statement .pla := of_implied rfl rfl rfl rfl
theorem plp : Statement .plp := of_implied rfl rfl rfl rfl
theorem jmpAbs (w : Word) : Statement (.jmpAbs w) := of_word rfl rfl rfl rfl rfl rfl
theorem jmpInd (w : Word) : Statement (.jmpInd w) := of_word rfl rfl rfl rfl rfl rfl
theorem jsrAbs (w : Word) : Statement (.jsrAbs w) := of_word rfl rfl rfl rfl rfl rfl
theorem rts : Statement .rts := of_implied rfl rfl rfl rfl
theorem tax : Statement .tax := of_implied rfl rfl rfl rfl
theorem txa : Statement .txa := of_implied rfl rfl rfl rfl
theorem tay : Statement .tay := of_implied rfl rfl rfl rfl
theorem tya : Statement .tya := of_implied rfl rfl rfl rfl
theorem inx : Statement .inx := of_implied rfl rfl rfl rfl
theorem dex : Statement .dex := of_implied rfl rfl rfl rfl
theorem iny : Statement .iny := of_implied rfl rfl rfl rfl
theorem dey : Statement .dey := of_implied rfl rfl rfl rfl
theorem clc : Statement .clc := of_implied rfl rfl rfl rfl
theorem sec : Statement .sec := of_implied rfl rfl rfl rfl
theorem cli : Statement .cli := of_implied rfl rfl rfl rfl
theorem sei : Statement .sei := of_implied rfl rfl rfl rfl
theorem clv : Statement .clv := of_implied rfl rfl rfl rfl
theorem cld : Statement .cld := of_implied rfl rfl rfl rfl
theorem sed : Statement .sed := of_implied rfl rfl rfl rfl
theorem nop : Statement .nop := of_implied rfl rfl rfl rfl

end Sys2Proof.Laws.TableRow
end

