-- ==== Sys2Proof/Laws/Step.lean ====
section
/-! SUPPORT. What exec and step can do, said once: every instruction completes with at most two accesses of its own, through
which alone it reaches the Address Space; a step ends in one of three ways. -/

namespace Sys2Proof.Laws

open Sys2Proof.Machine

/-- t follows from s by some accesses (at most n) delivered in order, and by register writes; marks and parameters stay. -/
structure Reaches (n : Nat) (s t : State) (accs : List BusAccess) : Prop where
  few     : accs.length ≤ n
  bus     : t.bus = s.bus ++ accs
  regions : t.regions = accs.foldl deliver s.regions
  fault   : t.fault = s.fault
  refused : t.refused = s.refused
  cfg     : t.cfg = s.cfg

theorem Reaches.trans {n m : Nat} {s t u : State} {l l' : List BusAccess} (h : Reaches n s t l) (h' : Reaches m t u l') :
    Reaches (n + m) s u (l ++ l') where
  few := by simpa using Nat.add_le_add h.few h'.few
  bus := by rw [h'.bus, h.bus, List.append_assoc]
  regions := by rw [h'.regions, h.regions, List.foldl_append]
  fault := h'.fault.trans h.fault
  refused := h'.refused.trans h.refused
  cfg := h'.cfg.trans h.cfg

/-- Every instruction completes, reaching the Address Space only through its own accesses. -/
theorem exec_reaches (i : Instr) (s : State) : ∃ t accs, exec i s = .next t ∧ Reaches 2 s t accs := by
  cases i
  case jmpInd w =>
    exact ⟨_, [_, _], rfl, ⟨by simp, by simp [State.resolveInd], rfl, rfl, rfl, rfl⟩⟩
  case jsrAbs w =>
    exact ⟨_, [_, _], rfl, ⟨by simp, by simp [State.pushReturn], rfl, rfl, rfl, rfl⟩⟩
  case rts =>
    exact ⟨_, [_, _], rfl, ⟨by simp, by simp [State.pullReturn], rfl, rfl, rfl, rfl⟩⟩
  all_goals first
    | exact ⟨_, [], rfl, ⟨by simp, (List.append_nil _).symm, rfl, rfl, rfl, rfl⟩⟩
    | exact ⟨_, [_], rfl, ⟨by simp, rfl, rfl, rfl, rfl, rfl⟩⟩

/-- The operand bytes of a row are at most two reads. -/
theorem fetchOperand_reaches (s : State) (b : Build) : ∃ accs, Reaches 2 s (s.fetchOperand b).2 accs := by
  cases b with
  | implied i => exact ⟨[], ⟨by simp, (List.append_nil _).symm, rfl, rfl, rfl, rfl⟩⟩
  | byte f => exact ⟨[_], ⟨by simp, rfl, rfl, rfl, rfl, rfl⟩⟩
  | word f =>
    exact ⟨[_, _], ⟨by simp, by simp [State.fetchOperand, State.fetch16], rfl, rfl, rfl, rfl⟩⟩

/-- The state after the opcode fetch of a step (30_encoding.md R80, phase 1). -/
theorem fetchOpcode_eq (s : State) :
    s.clearBus.fetch8 =
      (s.peek s.pc, (s.clearBus.access (.read s.pc (s.peek s.pc))).setPc (s.pc + 1#16)) := rfl

/-- The three ways a step answers a next state: an unknown opcode, a refused class row, an instruction that completes. -/
theorem step_cases {s t : State} (h : step s = .next t) :
    s.fault = none ∧ s.refused = false ∧
      ((lookupRow (s.peek s.pc) = none ∧ t = s.clearBus.fetch8.2.unknownOpcode (s.peek s.pc) s.pc) ∨
       ∃ row, lookupRow (s.peek s.pc) = some row ∧
        ((classRefused s.cfg row.basis = true ∧ t = s.clearBus.fetch8.2.markRefused s.pc) ∨
         (classRefused s.cfg row.basis = false ∧
          exec (s.clearBus.fetch8.2.fetchOperand row.build).1 (s.clearBus.fetch8.2.fetchOperand row.build).2 = .next t))) := by
  unfold step State.runStep at h
  split at h
  · cases h
  · rename_i hf
    split at h
    · cases h
    · rename_i hr
      refine ⟨hf, by simpa using hr, ?_⟩
      unfold State.runOpcode at h
      split at h
      · rename_i hl
        cases h
        exact .inl ⟨hl, rfl⟩
      · rename_i row hl
        refine .inr ⟨row, hl, ?_⟩
        unfold State.runRow at h
        split at h
        · rename_i hc
          cases h
          exact .inl ⟨hc, rfl⟩
        · rename_i hc
          exact .inr ⟨by simpa using hc, h⟩

/-- An unmarked machine's step, by what the opcode byte is. -/
theorem step_running {s : State} (h : s.running = true) :
    step s = s.clearBus.fetch8.2.runOpcode (s.peek s.pc) s.pc := by
  unfold State.running at h
  simp only [Bool.and_eq_true, Option.isNone_iff_eq_none, Bool.not_eq_true'] at h
  unfold step State.runStep
  rw [h.1]
  simp [h.2]

end Sys2Proof.Laws
end

