-- ==== Sys2Proof/Tests/Slice0.lean ====
section
/-! SUPPORT. Own tests: decoding of a word of every row written out from its encoding, one-step vectors of 95_test_vectors.md,
the checks of WellFormed refusing ill-formed terms, and a witness for the hypotheses of each statement. Expected values come
from the spec. -/

namespace Sys2Proof.Tests

open Sys2Proof Sys2Proof.Machine

/-! Helpers. -/

/-- The next state, if there is one. -/
def nextOf : Host.Outcome State Fault Refusal → Option State
  | .next t => some t
  | .fault _ => none
  | .refused _ => none

/-- The bytes decode to exactly this instruction, nothing left. -/
def decodesTo (bytes : List Byte) (i : Instr) : Bool :=
  match decode bytes with
  | .ok (j, []) => i == j
  | _ => false

/-- 95_test_vectors.md's conventions: one RAM region over the whole space, the code at PC, the listed bytes written, every register zero. -/
def start (pc : Word) (code : List Byte) (mem : List (Word × Byte)) : State :=
  ((State.construct Config.default).hostLoad ((pc, code) :: mem.map fun c => (c.1, [c.2]))).setPc pc

/-- One step ends with these registers. -/
def endsIn (s : State) (r : TraceRecord) : Bool := (nextOf (step s)).map State.trace == some r

/-- One step ends with these registers after these accesses. -/
def endsWith (s : State) (r : TraceRecord) (accs : List BusAccess) : Bool :=
  endsIn s r && (nextOf (step s)).map State.bus == some accs

/-- A machine with the given regions, policies at their defaults. -/
def machineOver (rs : List RegionDecl) : State := State.construct { regions := rs, params := Config.default.params }

def ramDecl (start : Word) (size : Nat) : RegionDecl := { start := start, size := size, kind := .ram (.fixed 0x00 []) }

/-- RAM that draws its contents in the low half, nothing above it (programs P4 of 95_test_vectors.md). -/
def lowRam : State := machineOver [{ start := 0x0000, size := 0x8000, kind := .ram .draw }]

/-- A device of 16 bytes in front of RAM over the whole space. -/
def withDevice : State := machineOver [{ start := 0xD000, size := 0x10, kind := .device .draw }, ramDecl 0x0000 0x10000]

/-- A state whose fault record or refusal mark is set. -/
def faulted : State := (start 0x0200 [0xEA] []).recordFault 0x00 0x0200
def marked : State := (start 0x0200 [0xEA] []).markRefused 0x0200

/-- The same machine under other parameters. -/
def under (s : State) (u : UnknownPolicy) (c : ClassRows) : State := { s with cfg := { unknownOpcode := u, classRows := c } }

/-! Decoding: every constructor, by a word written out from its row's encoding (30_encoding.md R83, R98). -/

theorem test_decode_loads :
    [ decodesTo [0b10101001, 0x5A] (.ldaImm 0x5A),
      decodesTo [0b10100101, 0x5A] (.ldaZp 0x5A),
      decodesTo [0b10110101, 0x5A] (.ldaZpx 0x5A),
      decodesTo [0b10101101, 0x34, 0x12] (.ldaAbs 0x1234),
      decodesTo [0b10111101, 0x34, 0x12] (.ldaAbsx 0x1234),
      decodesTo [0b10111001, 0x34, 0x12] (.ldaAbsy 0x1234),
      decodesTo [0b10100010, 0x5A] (.ldxImm 0x5A),
      decodesTo [0b10100110, 0x5A] (.ldxZp 0x5A),
      decodesTo [0b10101110, 0x34, 0x12] (.ldxAbs 0x1234),
      decodesTo [0b10111110, 0x34, 0x12] (.ldxAbsy 0x1234),
      decodesTo [0b10100000, 0x5A] (.ldyImm 0x5A),
      decodesTo [0b10100100, 0x5A] (.ldyZp 0x5A),
      decodesTo [0b10110100, 0x5A] (.ldyZpx 0x5A),
      decodesTo [0b10101100, 0x34, 0x12] (.ldyAbs 0x1234),
      decodesTo [0b10111100, 0x34, 0x12] (.ldyAbsx 0x1234) ].all id = true := by decide

theorem test_decode_stores :
    [ decodesTo [0b10000101, 0x5A] (.staZp 0x5A),
      decodesTo [0b10010101, 0x5A] (.staZpx 0x5A),
      decodesTo [0b10001101, 0x34, 0x12] (.staAbs 0x1234),
      decodesTo [0b10011101, 0x34, 0x12] (.staAbsx 0x1234),
      decodesTo [0b10011001, 0x34, 0x12] (.staAbsy 0x1234),
      decodesTo [0b10000110, 0x5A] (.stxZp 0x5A),
      decodesTo [0b10001110, 0x34, 0x12] (.stxAbs 0x1234),
      decodesTo [0b10000100, 0x5A] (.styZp 0x5A),
      decodesTo [0b10010100, 0x5A] (.styZpx 0x5A),
      decodesTo [0b10001100, 0x34, 0x12] (.styAbs 0x1234) ].all id = true := by decide

theorem test_decode_compares :
    [ decodesTo [0b11001001, 0x5A] (.cmpImm 0x5A),
      decodesTo [0b11000101, 0x5A] (.cmpZp 0x5A),
      decodesTo [0b11010101, 0x5A] (.cmpZpx 0x5A),
      decodesTo [0b11001101, 0x34, 0x12] (.cmpAbs 0x1234),
      decodesTo [0b11011101, 0x34, 0x12] (.cmpAbsx 0x1234),
      decodesTo [0b11011001, 0x34, 0x12] (.cmpAbsy 0x1234),
      decodesTo [0b11100000, 0x5A] (.cpxImm 0x5A),
      decodesTo [0b11100100, 0x5A] (.cpxZp 0x5A),
      decodesTo [0b11101100, 0x34, 0x12] (.cpxAbs 0x1234),
      decodesTo [0b11000000, 0x5A] (.cpyImm 0x5A),
      decodesTo [0b11000100, 0x5A] (.cpyZp 0x5A),
      decodesTo [0b11001100, 0x34, 0x12] (.cpyAbs 0x1234) ].all id = true := by decide

theorem test_decode_stack :
    [ decodesTo [0b01001000] .pha,
      decodesTo [0b00001000] .php,
      decodesTo [0b01101000] .pla,
      decodesTo [0b00101000] .plp ].all id = true := by decide

theorem test_decode_control :
    [ decodesTo [0b01001100, 0x34, 0x12] (.jmpAbs 0x1234),
      decodesTo [0b01101100, 0x34, 0x12] (.jmpInd 0x1234),
      decodesTo [0b00100000, 0x34, 0x12] (.jsrAbs 0x1234),
      decodesTo [0b01100000] .rts ].all id = true := by decide

theorem test_decode_transfers :
    [ decodesTo [0b10101010] .tax,
      decodesTo [0b10001010] .txa,
      decodesTo [0b10101000] .tay,
      decodesTo [0b10011000] .tya,
      decodesTo [0b11101000] .inx,
      decodesTo [0b11001010] .dex,
      decodesTo [0b11001000] .iny,
      decodesTo [0b10001000] .dey ].all id = true := by decide

theorem test_decode_flags :
    [ decodesTo [0b00011000] .clc,
      decodesTo [0b00111000] .sec,
      decodesTo [0b01011000] .cli,
      decodesTo [0b01111000] .sei,
      decodesTo [0b10111000] .clv,
      decodesTo [0b11011000] .cld,
      decodesTo [0b11111000] .sed ].all id = true := by decide

theorem test_decode_nop :
    [ decodesTo [0b11101010] .nop ].all id = true := by decide

/-! One step of each row (95_test_vectors.md): registers at the end, and the accesses where the vector gives them. -/

/-- 95_test_vectors.md, R111. -/
theorem test_lda_imm_1 :
    endsWith { start 0x0200 [0xA9, 0x00] [] with p := 0x80 }
      ⟨0x00, 0x00, 0x00, 0x00, 0x0202, 0x02⟩ [.read 0x0200 0xA9, .read 0x0201 0x00] = true := by decide

/-- 95_test_vectors.md, R111. -/
theorem test_lda_imm_2 :
    endsWith { start 0x0200 [0xA9, 0x7F] [] with p := 0x83 }
      ⟨0x7F, 0x00, 0x00, 0x00, 0x0202, 0x01⟩ [.read 0x0200 0xA9, .read 0x0201 0x7F] = true := by decide

/-- 95_test_vectors.md, R111. -/
theorem test_lda_zp_1 :
    endsWith (start 0x0200 [0xA5, 0x10] [(0x0010, 0x42)])
      ⟨0x42, 0x00, 0x00, 0x00, 0x0202, 0x00⟩ [.read 0x0200 0xA5, .read 0x0201 0x10, .read 0x0010 0x42] = true := by decide

/-- 95_test_vectors.md, S3. -/
theorem test_lda_zpx_1 :
    endsWith { start 0x0200 [0xB5, 0xF0] [(0x0010, 0x99)] with x := 0x20 }
      ⟨0x99, 0x20, 0x00, 0x00, 0x0202, 0x80⟩ [.read 0x0200 0xB5, .read 0x0201 0xF0, .read 0x0010 0x99] = true := by decide

/-- 95_test_vectors.md, R111. -/
theorem test_lda_abs_1 :
    endsWith { start 0x0200 [0xAD, 0x34, 0x12] [(0x1234, 0x00)] with p := 0x80 }
      ⟨0x00, 0x00, 0x00, 0x00, 0x0203, 0x02⟩ [.read 0x0200 0xAD, .read 0x0201 0x34, .read 0x0202 0x12, .read 0x1234 0x00] = true := by decide

/-- 95_test_vectors.md, S4. -/
theorem test_lda_absx_1 :
    endsWith { start 0x0200 [0xBD, 0xFE, 0x20] [(0x2103, 0x5A)] with x := 0x05 }
      ⟨0x5A, 0x05, 0x00, 0x00, 0x0203, 0x00⟩ [.read 0x0200 0xBD, .read 0x0201 0xFE, .read 0x0202 0x20, .read 0x2103 0x5A] = true := by decide

/-- 95_test_vectors.md, R111. -/
theorem test_lda_absy_1 :
    endsWith { start 0x0200 [0xB9, 0xFF, 0xFF] [(0x0001, 0xC3)] with y := 0x02 }
      ⟨0xC3, 0x00, 0x02, 0x00, 0x0203, 0x80⟩ [.read 0x0200 0xB9, .read 0x0201 0xFF, .read 0x0202 0xFF, .read 0x0001 0xC3] = true := by decide

/-- 95_test_vectors.md, R112. -/
theorem test_ldx_imm_1 :
    endsWith (start 0x0200 [0xA2, 0xFF] [])
      ⟨0x00, 0xFF, 0x00, 0x00, 0x0202, 0x80⟩ [.read 0x0200 0xA2, .read 0x0201 0xFF] = true := by decide

/-- 95_test_vectors.md, R112. -/
theorem test_ldx_zp_1 :
    endsWith (start 0x0200 [0xA6, 0x80] [(0x0080, 0x01)])
      ⟨0x00, 0x01, 0x00, 0x00, 0x0202, 0x00⟩ [.read 0x0200 0xA6, .read 0x0201 0x80, .read 0x0080 0x01] = true := by decide

/-- 95_test_vectors.md, R112. -/
theorem test_ldx_abs_1 :
    endsWith (start 0x0200 [0xAE, 0x00, 0x30] [(0x3000, 0x80)])
      ⟨0x00, 0x80, 0x00, 0x00, 0x0203, 0x80⟩ [.read 0x0200 0xAE, .read 0x0201 0x00, .read 0x0202 0x30, .read 0x3000 0x80] = true := by decide

/-- 95_test_vectors.md, R112. -/
theorem test_ldx_absy_1 :
    endsWith { start 0x0200 [0xBE, 0x00, 0x30] [(0x3010, 0x00)] with y := 0x10 }
      ⟨0x00, 0x00, 0x10, 0x00, 0x0203, 0x02⟩ [.read 0x0200 0xBE, .read 0x0201 0x00, .read 0x0202 0x30, .read 0x3010 0x00] = true := by decide

/-- 95_test_vectors.md, R113. -/
theorem test_ldy_imm_1 :
    endsWith { start 0x0200 [0xA0, 0x01] [] with p := 0x82 }
      ⟨0x00, 0x00, 0x01, 0x00, 0x0202, 0x00⟩ [.read 0x0200 0xA0, .read 0x0201 0x01] = true := by decide

/-- 95_test_vectors.md, R113. -/
theorem test_ldy_zp_1 :
    endsWith (start 0x0200 [0xA4, 0x00] [(0x0000, 0xA4)])
      ⟨0x00, 0x00, 0xA4, 0x00, 0x0202, 0x80⟩ [.read 0x0200 0xA4, .read 0x0201 0x00, .read 0x0000 0xA4] = true := by decide

/-- 95_test_vectors.md, R113. -/
theorem test_ldy_zpx_1 :
    endsWith { start 0x0200 [0xB4, 0x80] [(0x007F, 0x33)] with x := 0xFF }
      ⟨0x00, 0xFF, 0x33, 0x00, 0x0202, 0x00⟩ [.read 0x0200 0xB4, .read 0x0201 0x80, .read 0x007F 0x33] = true := by decide

/-- 95_test_vectors.md, R113. -/
theorem test_ldy_abs_1 :
    endsWith (start 0x0200 [0xAC, 0x00, 0x40] [(0x4000, 0xFE)])
      ⟨0x00, 0x00, 0xFE, 0x00, 0x0203, 0x80⟩ [.read 0x0200 0xAC, .read 0x0201 0x00, .read 0x0202 0x40, .read 0x4000 0xFE] = true := by decide

/-- 95_test_vectors.md, R113. -/
theorem test_ldy_absx_1 :
    endsWith { start 0x0200 [0xBC, 0xF0, 0x40] [(0x4110, 0x00)] with x := 0x20 }
      ⟨0x00, 0x20, 0x00, 0x00, 0x0203, 0x02⟩ [.read 0x0200 0xBC, .read 0x0201 0xF0, .read 0x0202 0x40, .read 0x4110 0x00] = true := by decide

/-- 95_test_vectors.md, R114. -/
theorem test_sta_zp_1 :
    endsWith { start 0x0200 [0x85, 0x10] [] with a := 0x42 }
      ⟨0x42, 0x00, 0x00, 0x00, 0x0202, 0x00⟩ [.read 0x0200 0x85, .read 0x0201 0x10, .write 0x0010 0x42] = true := by decide

/-- 95_test_vectors.md, R114. -/
theorem test_sta_zpx_1 :
    endsWith { start 0x0200 [0x95, 0xFF] [] with a := 0x80, x := 0x01 }
      ⟨0x80, 0x01, 0x00, 0x00, 0x0202, 0x00⟩ [.read 0x0200 0x95, .read 0x0201 0xFF, .write 0x0000 0x80] = true := by decide

/-- 95_test_vectors.md, R114. -/
theorem test_sta_abs_1 :
    endsWith { start 0x0200 [0x8D, 0x00, 0x03] [] with a := 0x00, p := 0x80 }
      ⟨0x00, 0x00, 0x00, 0x00, 0x0203, 0x80⟩ [.read 0x0200 0x8D, .read 0x0201 0x00, .read 0x0202 0x03, .write 0x0300 0x00] = true := by decide

/-- 95_test_vectors.md, R114. -/
theorem test_sta_absx_1 :
    endsWith { start 0x0200 [0x9D, 0xFF, 0x03] [] with a := 0x11, x := 0x01 }
      ⟨0x11, 0x01, 0x00, 0x00, 0x0203, 0x00⟩ [.read 0x0200 0x9D, .read 0x0201 0xFF, .read 0x0202 0x03, .write 0x0400 0x11] = true := by decide

/-- 95_test_vectors.md, R114. -/
theorem test_sta_absy_1 :
    endsWith { start 0x0200 [0x99, 0x00, 0x03] [] with a := 0x22, y := 0x05 }
      ⟨0x22, 0x00, 0x05, 0x00, 0x0203, 0x00⟩ [.read 0x0200 0x99, .read 0x0201 0x00, .read 0x0202 0x03, .write 0x0305 0x22] = true := by decide

/-- 95_test_vectors.md, R115. -/
theorem test_stx_zp_1 :
    endsWith { start 0x0200 [0x86, 0x20] [] with x := 0x7F }
      ⟨0x00, 0x7F, 0x00, 0x00, 0x0202, 0x00⟩ [.read 0x0200 0x86, .read 0x0201 0x20, .write 0x0020 0x7F] = true := by decide

/-- 95_test_vectors.md, R115. -/
theorem test_stx_abs_1 :
    endsWith { start 0x0200 [0x8E, 0x00, 0x05] [] with x := 0x00 }
      ⟨0x00, 0x00, 0x00, 0x00, 0x0203, 0x00⟩ [.read 0x0200 0x8E, .read 0x0201 0x00, .read 0x0202 0x05, .write 0x0500 0x00] = true := by decide

/-- 95_test_vectors.md, R116. -/
theorem test_sty_zp_1 :
    endsWith { start 0x0200 [0x84, 0x21] [] with y := 0x81 }
      ⟨0x00, 0x00, 0x81, 0x00, 0x0202, 0x00⟩ [.read 0x0200 0x84, .read 0x0201 0x21, .write 0x0021 0x81] = true := by decide

/-- 95_test_vectors.md, R116. -/
theorem test_sty_zpx_1 :
    endsWith { start 0x0200 [0x94, 0xF0] [] with y := 0x01, x := 0x10 }
      ⟨0x00, 0x10, 0x01, 0x00, 0x0202, 0x00⟩ [.read 0x0200 0x94, .read 0x0201 0xF0, .write 0x0000 0x01] = true := by decide

/-- 95_test_vectors.md, R116. -/
theorem test_sty_abs_1 :
    endsWith { start 0x0200 [0x8C, 0x01, 0x05] [] with y := 0x02 }
      ⟨0x00, 0x00, 0x02, 0x00, 0x0203, 0x00⟩ [.read 0x0200 0x8C, .read 0x0201 0x01, .read 0x0202 0x05, .write 0x0501 0x02] = true := by decide

/-- 95_test_vectors.md, S5b. -/
theorem test_cmp_imm_1 :
    endsWith { start 0x0200 [0xC9, 0x81] [] with a := 0x80 }
      ⟨0x80, 0x00, 0x00, 0x00, 0x0202, 0x80⟩ [.read 0x0200 0xC9, .read 0x0201 0x81] = true := by decide

/-- 95_test_vectors.md, R141. -/
theorem test_cmp_imm_2 :
    endsIn { start 0x0200 [0xC9, 0x01] [] with a := 0x00 }
      ⟨0x00, 0x00, 0x00, 0x00, 0x0202, 0x02⟩ = true := by decide

/-- 95_test_vectors.md, R141. -/
theorem test_cmp_zp_1 :
    endsIn { start 0x0200 [0xC5, 0x10] [(0x0010, 0x10)] with a := 0x10 }
      ⟨0x10, 0x00, 0x00, 0x00, 0x0202, 0x01⟩ = true := by decide

/-- 95_test_vectors.md, R141. -/
theorem test_cmp_zpx_1 :
    endsIn { start 0x0200 [0xD5, 0xFF] [(0x0001, 0x06)] with a := 0x05, x := 0x02 }
      ⟨0x05, 0x02, 0x00, 0x00, 0x0202, 0x00⟩ = true := by decide

/-- 95_test_vectors.md, R141. -/
theorem test_cmp_abs_1 :
    endsIn { start 0x0200 [0xCD, 0x00, 0x30] [(0x3000, 0x10)] with a := 0x90 }
      ⟨0x90, 0x00, 0x00, 0x00, 0x0203, 0x81⟩ = true := by decide

/-- 95_test_vectors.md, R141. -/
theorem test_cmp_absx_1 :
    endsIn { start 0x0200 [0xDD, 0xFF, 0x30] [(0x3100, 0x01)] with a := 0x01, x := 0x01 }
      ⟨0x01, 0x01, 0x00, 0x00, 0x0203, 0x01⟩ = true := by decide

/-- 95_test_vectors.md, R141. -/
theorem test_cmp_absy_1 :
    endsIn { start 0x0200 [0xD9, 0x00, 0x30] [(0x3003, 0x80)] with a := 0x00, y := 0x03 }
      ⟨0x00, 0x00, 0x03, 0x00, 0x0203, 0x02⟩ = true := by decide

/-- 95_test_vectors.md, R142. -/
theorem test_cpx_imm_1 :
    endsIn { start 0x0200 [0xE0, 0x10] [] with x := 0x0F }
      ⟨0x00, 0x0F, 0x00, 0x00, 0x0202, 0x00⟩ = true := by decide

/-- 95_test_vectors.md, R142. -/
theorem test_cpx_zp_1 :
    endsIn { start 0x0200 [0xE4, 0x44] [(0x0044, 0x7F)] with x := 0x80 }
      ⟨0x00, 0x80, 0x00, 0x00, 0x0202, 0x81⟩ = true := by decide

/-- 95_test_vectors.md, R142. -/
theorem test_cpx_abs_1 :
    endsIn { start 0x0200 [0xEC, 0x00, 0x30] [(0x3000, 0x00)] with x := 0x00 }
      ⟨0x00, 0x00, 0x00, 0x00, 0x0203, 0x03⟩ = true := by decide

/-- 95_test_vectors.md, R143. -/
theorem test_cpy_imm_1 :
    endsIn { start 0x0200 [0xC0, 0xFF] [] with y := 0xFF }
      ⟨0x00, 0x00, 0xFF, 0x00, 0x0202, 0x81⟩ = true := by decide

/-- 95_test_vectors.md, R143. -/
theorem test_cpy_zp_1 :
    endsIn { start 0x0200 [0xC4, 0x44] [(0x0044, 0x02)] with y := 0x01 }
      ⟨0x00, 0x00, 0x01, 0x00, 0x0202, 0x00⟩ = true := by decide

/-- 95_test_vectors.md, R143. -/
theorem test_cpy_abs_1 :
    endsIn { start 0x0200 [0xCC, 0x00, 0x30] [(0x3000, 0x3F)] with y := 0x40 }
      ⟨0x00, 0x00, 0x40, 0x00, 0x0203, 0x01⟩ = true := by decide

/-- 95_test_vectors.md, R160. -/
theorem test_pha_1 :
    endsWith { start 0x0200 [0x48] [] with a := 0x5C, sp := 0xFF }
      ⟨0x5C, 0x00, 0x00, 0xFE, 0x0201, 0x00⟩ [.read 0x0200 0x48, .write 0x01FF 0x5C] = true := by decide

/-- 95_test_vectors.md, R160. -/
theorem test_pha_2 :
    endsWith { start 0x0200 [0x48] [] with a := 0x5C, sp := 0x00 }
      ⟨0x5C, 0x00, 0x00, 0xFF, 0x0201, 0x00⟩ [.read 0x0200 0x48, .write 0x0100 0x5C] = true := by decide

/-- 95_test_vectors.md, R161. -/
theorem test_php_1 :
    endsWith { start 0x0200 [0x08] [] with p := 0x31, sp := 0xFF }
      ⟨0x00, 0x00, 0x00, 0xFE, 0x0201, 0x31⟩ [.read 0x0200 0x08, .write 0x01FF 0x31] = true := by decide

/-- 95_test_vectors.md, R162. -/
theorem test_pla_1 :
    endsWith { start 0x0200 [0x68] [(0x01FF, 0x00)] with a := 0x12, sp := 0xFE }
      ⟨0x00, 0x00, 0x00, 0xFF, 0x0201, 0x02⟩ [.read 0x0200 0x68, .read 0x01FF 0x00] = true := by decide

/-- 95_test_vectors.md, R162. -/
theorem test_pla_2 :
    endsWith { start 0x0200 [0x68] [(0x0100, 0x80)] with sp := 0xFF }
      ⟨0x80, 0x00, 0x00, 0x00, 0x0201, 0x80⟩ [.read 0x0200 0x68, .read 0x0100 0x80] = true := by decide

/-- 95_test_vectors.md, R163. -/
theorem test_plp_1 :
    endsWith { start 0x0200 [0x28] [(0x01F1, 0xFF)] with sp := 0xF0 }
      ⟨0x00, 0x00, 0x00, 0xF1, 0x0201, 0xFF⟩ [.read 0x0200 0x28, .read 0x01F1 0xFF] = true := by decide

/-- 95_test_vectors.md, R163. -/
theorem test_plp_2 :
    endsWith { start 0x0200 [0x28] [(0x01F1, 0x00)] with p := 0xFF, sp := 0xF0 }
      ⟨0x00, 0x00, 0x00, 0xF1, 0x0201, 0x00⟩ [.read 0x0200 0x28, .read 0x01F1 0x00] = true := by decide

/-- 95_test_vectors.md, R170. -/
theorem test_jmp_abs_1 :
    endsWith (start 0x0200 [0x4C, 0x34, 0x12] [])
      ⟨0x00, 0x00, 0x00, 0x00, 0x1234, 0x00⟩ [.read 0x0200 0x4C, .read 0x0201 0x34, .read 0x0202 0x12] = true := by decide

/-- 95_test_vectors.md, R170. -/
theorem test_jmp_abs_2 :
    endsWith (start 0x0200 [0x4C, 0x00, 0x02] [])
      ⟨0x00, 0x00, 0x00, 0x00, 0x0200, 0x00⟩ [.read 0x0200 0x4C, .read 0x0201 0x00, .read 0x0202 0x02] = true := by decide

/-- 95_test_vectors.md, R171. -/
theorem test_jmp_ind_1 :
    endsWith (start 0x0200 [0x6C, 0xFF, 0x12] [(0x12FF, 0x00), (0x1300, 0x40), (0x1200, 0x99)])
      ⟨0x00, 0x00, 0x00, 0x00, 0x4000, 0x00⟩ [.read 0x0200 0x6C, .read 0x0201 0xFF, .read 0x0202 0x12, .read 0x12FF 0x00, .read 0x1300 0x40] = true := by decide

/-- 95_test_vectors.md, R171. -/
theorem test_jmp_ind_2 :
    endsWith (start 0x0300 [0x6C, 0xFF, 0xFF] [(0xFFFF, 0x34), (0x0000, 0x12)])
      ⟨0x00, 0x00, 0x00, 0x00, 0x1234, 0x00⟩ [.read 0x0300 0x6C, .read 0x0301 0xFF, .read 0x0302 0xFF, .read 0xFFFF 0x34, .read 0x0000 0x12] = true := by decide

/-- 95_test_vectors.md, S6a. -/
theorem test_jsr_abs_1 :
    endsWith { start 0x01C0 [0x20, 0x40, 0x20] [] with sp := 0xFF }
      ⟨0x00, 0x00, 0x00, 0xFD, 0x2040, 0x00⟩ [.read 0x01C0 0x20, .read 0x01C1 0x40, .read 0x01C2 0x20, .write 0x01FF 0x01, .write 0x01FE 0xC2] = true := by decide

/-- 95_test_vectors.md, R172. -/
theorem test_jsr_abs_2 :
    endsWith { start 0xFFFD [0x20, 0x00, 0x30] [] with sp := 0xFF }
      ⟨0x00, 0x00, 0x00, 0xFD, 0x3000, 0x00⟩ [.read 0xFFFD 0x20, .read 0xFFFE 0x00, .read 0xFFFF 0x30, .write 0x01FF 0xFF, .write 0x01FE 0xFF] = true := by decide

/-- 95_test_vectors.md, R173. -/
theorem test_rts_1 :
    endsWith { start 0x0200 [0x60] [(0x01FE, 0xC2), (0x01FF, 0x01)] with sp := 0xFD }
      ⟨0x00, 0x00, 0x00, 0xFF, 0x01C3, 0x00⟩ [.read 0x0200 0x60, .read 0x01FE 0xC2, .read 0x01FF 0x01] = true := by decide

/-- 95_test_vectors.md, R173. -/
theorem test_rts_2 :
    endsWith { start 0x0200 [0x60] [(0x0100, 0x33), (0x0101, 0x44)] with sp := 0xFF }
      ⟨0x00, 0x00, 0x00, 0x01, 0x4434, 0x00⟩ [.read 0x0200 0x60, .read 0x0100 0x33, .read 0x0101 0x44] = true := by decide

/-- 95_test_vectors.md, R180. -/
theorem test_tax_1 :
    endsWith { start 0x0200 [0xAA] [] with a := 0x00, x := 0x55, p := 0x80 }
      ⟨0x00, 0x00, 0x00, 0x00, 0x0201, 0x02⟩ [.read 0x0200 0xAA] = true := by decide

/-- 95_test_vectors.md, R180. -/
theorem test_tax_2 :
    endsWith { start 0x0200 [0xAA] [] with a := 0x80 }
      ⟨0x80, 0x80, 0x00, 0x00, 0x0201, 0x80⟩ [.read 0x0200 0xAA] = true := by decide

/-- 95_test_vectors.md, R181. -/
theorem test_txa_1 :
    endsWith { start 0x0200 [0x8A] [] with x := 0x7F, p := 0x02 }
      ⟨0x7F, 0x7F, 0x00, 0x00, 0x0201, 0x00⟩ [.read 0x0200 0x8A] = true := by decide

/-- 95_test_vectors.md, R182. -/
theorem test_tay_1 :
    endsWith { start 0x0200 [0xA8] [] with a := 0xFF }
      ⟨0xFF, 0x00, 0xFF, 0x00, 0x0201, 0x80⟩ [.read 0x0200 0xA8] = true := by decide

/-- 95_test_vectors.md, R183. -/
theorem test_tya_1 :
    endsWith { start 0x0200 [0x98] [] with y := 0x00, a := 0x12 }
      ⟨0x00, 0x00, 0x00, 0x00, 0x0201, 0x02⟩ [.read 0x0200 0x98] = true := by decide

/-- 95_test_vectors.md, R184. -/
theorem test_inx_1 :
    endsWith { start 0x0200 [0xE8] [] with x := 0xFF, p := 0x80 }
      ⟨0x00, 0x00, 0x00, 0x00, 0x0201, 0x02⟩ [.read 0x0200 0xE8] = true := by decide

/-- 95_test_vectors.md, R184. -/
theorem test_inx_2 :
    endsWith { start 0x0200 [0xE8] [] with x := 0x7F }
      ⟨0x00, 0x80, 0x00, 0x00, 0x0201, 0x80⟩ [.read 0x0200 0xE8] = true := by decide

/-- 95_test_vectors.md, R185. -/
theorem test_dex_1 :
    endsWith { start 0x0200 [0xCA] [] with x := 0x00 }
      ⟨0x00, 0xFF, 0x00, 0x00, 0x0201, 0x80⟩ [.read 0x0200 0xCA] = true := by decide

/-- 95_test_vectors.md, R185. -/
theorem test_dex_2 :
    endsWith { start 0x0200 [0xCA] [] with x := 0x01, p := 0x01 }
      ⟨0x00, 0x00, 0x00, 0x00, 0x0201, 0x03⟩ [.read 0x0200 0xCA] = true := by decide

/-- 95_test_vectors.md, R186. -/
theorem test_iny_1 :
    endsWith { start 0x0200 [0xC8] [] with y := 0x00, p := 0x02 }
      ⟨0x00, 0x00, 0x01, 0x00, 0x0201, 0x00⟩ [.read 0x0200 0xC8] = true := by decide

/-- 95_test_vectors.md, R186. -/
theorem test_iny_2 :
    endsWith { start 0x0200 [0xC8] [] with y := 0xFF }
      ⟨0x00, 0x00, 0x00, 0x00, 0x0201, 0x02⟩ [.read 0x0200 0xC8] = true := by decide

/-- 95_test_vectors.md, R187. -/
theorem test_dey_1 :
    endsWith { start 0x0200 [0x88] [] with y := 0x80 }
      ⟨0x00, 0x00, 0x7F, 0x00, 0x0201, 0x00⟩ [.read 0x0200 0x88] = true := by decide

/-- 95_test_vectors.md, R187. -/
theorem test_dey_2 :
    endsWith { start 0x0200 [0x88] [] with y := 0x00 }
      ⟨0x00, 0x00, 0xFF, 0x00, 0x0201, 0x80⟩ [.read 0x0200 0x88] = true := by decide

/-- 95_test_vectors.md, R190. -/
theorem test_clc_1 :
    endsWith { start 0x0200 [0x18] [] with p := 0xFF }
      ⟨0x00, 0x00, 0x00, 0x00, 0x0201, 0xFE⟩ [.read 0x0200 0x18] = true := by decide

/-- 95_test_vectors.md, R191. -/
theorem test_sec_1 :
    endsWith { start 0x0200 [0x38] [] with p := 0x00 }
      ⟨0x00, 0x00, 0x00, 0x00, 0x0201, 0x01⟩ [.read 0x0200 0x38] = true := by decide

/-- 95_test_vectors.md, R191. -/
theorem test_sec_2 :
    endsWith { start 0x0200 [0x38] [] with p := 0x01 }
      ⟨0x00, 0x00, 0x00, 0x00, 0x0201, 0x01⟩ [.read 0x0200 0x38] = true := by decide

/-- 95_test_vectors.md, R192. -/
theorem test_cli_1 :
    endsWith { start 0x0200 [0x58] [] with p := 0x04 }
      ⟨0x00, 0x00, 0x00, 0x00, 0x0201, 0x00⟩ [.read 0x0200 0x58] = true := by decide

/-- 95_test_vectors.md, R193. -/
theorem test_sei_1 :
    endsWith { start 0x0200 [0x78] [] with p := 0x00 }
      ⟨0x00, 0x00, 0x00, 0x00, 0x0201, 0x04⟩ [.read 0x0200 0x78] = true := by decide

/-- 95_test_vectors.md, R194. -/
theorem test_clv_1 :
    endsWith { start 0x0200 [0xB8] [] with p := 0x40 }
      ⟨0x00, 0x00, 0x00, 0x00, 0x0201, 0x00⟩ [.read 0x0200 0xB8] = true := by decide

/-- 95_test_vectors.md, R195. -/
theorem test_cld_1 :
    endsWith { start 0x0200 [0xD8] [] with p := 0xFF }
      ⟨0x00, 0x00, 0x00, 0x00, 0x0201, 0xF7⟩ [.read 0x0200 0xD8] = true := by decide

/-- 95_test_vectors.md, R196. -/
theorem test_sed_1 :
    endsWith { start 0x0200 [0xF8] [] with p := 0x00 }
      ⟨0x00, 0x00, 0x00, 0x00, 0x0201, 0x08⟩ [.read 0x0200 0xF8] = true := by decide

/-- 95_test_vectors.md 2.7, R200: P = 5A and A = 01 stay. -/
theorem test_nop_1 :
    endsWith { start 0x0200 [0xEA] [] with a := 0x01, p := 0x5A }
      ⟨0x01, 0x00, 0x00, 0x00, 0x0201, 0x5A⟩ [.read 0x0200 0xEA] = true := by decide

/-! Unknown opcodes, class rows, marks (95_test_vectors.md 2.7, 2.1). -/

theorem test_unknown_nop : endsWith (start 0x0200 [0x00] []) ⟨0, 0, 0, 0, 0x0201, 0⟩ [.read 0x0200 0x00] = true := by decide

theorem test_unknown_fault :
    (nextOf (step (under (start 0x0200 [0x00] []) .fault .execute))).map (fun t => (t.fault, t.pc)) =
      some (some (0x00, 0x0200), 0x0200) := by decide

theorem test_unknown_refuse :
    (nextOf (step (under (start 0x0200 [0x00] []) .refuse .execute))).map (fun t => (t.refused, t.pc)) =
      some (true, 0x0200) := by decide

theorem test_class_refused :
    (nextOf (step (under (start 0x0200 [0xA2, 0xFE] []) .nop .refuse))).map (fun t => (t.refused, t.pc, t.x, t.bus)) =
      some (true, 0x0200, 0x00, [.read 0x0200 0xA2]) := by decide

theorem test_named_row_runs_when_class_refused :
    endsIn (under (start 0x0200 [0x38] []) .nop .refuse) ⟨0, 0, 0, 0, 0x0201, 0x01⟩ = true := by decide

theorem test_faulted_stops : step faulted = .fault (.unknownOpcode 0x00 0x0200) := rfl

theorem test_marked_stops : step marked = .refused .refusalMark := rfl

/-! Address space, ports, reset (95_test_vectors.md 1.1, 2.1, 2.8). -/

/-- S7. -/
theorem test_first_region_wins :
    let s := ((machineOver [ramDecl 0x1000 0x100, ramDecl 0x1080 0x100]).hostWrite 0x1090 [0x11]).hostWrite 0x1150 [0x22]
    (s.peek 0x1090, s.peek 0x1150, s.regions.map Region.body) =
      (0x11, 0x22, [.ram (.fixed 0x00 []) [(0x90, 0x11)], .ram (.fixed 0x00 []) [(0xD0, 0x22)]]) := by decide

/-- S8. -/
theorem test_host_write_spans_regions :
    ((machineOver [ramDecl 0x0000 0x100, ramDecl 0x0100 0x100]).hostWrite 0x00FF [0xAB, 0xCD]).regions.map Region.body =
      [.ram (.fixed 0x00 []) [(0xFF, 0xAB)], .ram (.fixed 0x00 []) [(0x00, 0xCD)]] := by decide

/-- 2.8, R56. -/
theorem test_host_write_wraps :
    let s := (start 0x0200 [] []).hostWrite 0xFFFF [0x01, 0x02]
    (s.peek 0xFFFF, s.peek 0x0000) = (0x01, 0x02) := by decide

/-- 2.8, R52. -/
theorem test_range_top_and_empty :
    ((constructRegion (ramDecl 0xFF00 0x100)).inRange 0xFFFF, (constructRegion (ramDecl 0x0010 0)).inRange 0x0010) =
      (true, false) := by decide

/-- 2.1: an unmapped load gives FF, from RAM whose other bytes are drawn. -/
theorem test_unmapped_load :
    endsIn ((lowRam.hostWrite 0x0200 [0xAD, 0x00, 0x90]).setPc 0x0200) ⟨0xFF, 0, 0, 0, 0x0203, 0x80⟩ = true := by decide

/-- 2.1: an unmapped store is issued and dropped. -/
theorem test_unmapped_store :
    let s := { (lowRam.hostWrite 0x0200 [0x8D, 0x00, 0x90]).setPc 0x0200 with a := 0x42 }
    (nextOf (step s)).map (fun t => (t.regions == s.regions, t.bus.getLast?, t.peek 0x9000)) =
      some (true, some (.write 0x9000 0x42), 0xFF) := by decide

/-- 2.7, R202: an unmapped fetch is an unknown opcode, and PC wraps. -/
theorem test_unmapped_fetch : endsIn (lowRam.setPc 0xFFFF) ⟨0, 0, 0, 0, 0x0000, 0⟩ = true := by decide

/-- Writing the byte an unlisted offset reads as removes the cell. -/
theorem test_memory_stays_canonical :
    (((start 0x0200 [] []).hostWrite 0x0300 [0x05]).hostWrite 0x0300 [0x00]).regions = (start 0x0200 [] []).regions := by decide

/-- 20_memory.md R58: a device read is the free value of its record, and a store is recorded. -/
theorem test_device_read :
    let s := (withDevice.hostWrite 0x0200 [0xAD, 0x00, 0xD0]).setPc 0x0200
    (nextOf (step s)).map State.a = some (Config.deviceRead 0 [] 0xD000) := by rfl

theorem test_device_store_recorded :
    let s := { (withDevice.hostWrite 0x0200 [0x8D, 0x01, 0xD0]).setPc 0x0200 with a := 0x42 }
    ((nextOf (step s)).bind (fun t => t.regions.head?)).map Region.body =
      some (.device .draw [.access (.write 0xD001 0x42)]) := by decide

/-- A device described (DEVICE_k, 00_scope.md R8): byte 0 counts the reads and writes it has seen and is answered at offset 0, byte 1
is a latch answered elsewhere; a change of its own clears the counter. -/
def counter : DeviceProgram :=
  let tick : DeviceStmt := .put (.lit 0) (.bin .add (.byte (.lit 0)) (.lit 1))
  { size := 2, init := .fixed 0x00 [(1, 0x55)]
    answer := .cond (.bin .eq .offset (.lit 0)) (.byte (.lit 0)) (.byte (.lit 1))
    onRead := tick, onWrite := .seq (.put (.lit 1) .value) tick, onChange := .put (.lit 0) (.lit 0) }

def withCounter : State := machineOver [{ start := 0xD000, size := 0x10, kind := .device (.program counter) }, ramDecl 0x0000 0x10000]

/-- A device read may change the device's state (20_memory.md R58). -/
theorem test_described_device_read_effect :
    let s := (withCounter.memRead 0xD000).2
    withCounter.peek 0xD000 = 0x00 ∧ s.peek 0xD000 = 0x01 ∧ (s.deviceChange 0).peek 0xD000 = 0x00 := by decide

/-- A store to a described device, then a load from it, by steps. -/
theorem test_described_device_write :
    let s := { (withCounter.hostWrite 0x0200 [0x8D, 0x01, 0xD0]).setPc 0x0200 with a := 0x42 }
    withCounter.peek 0xD001 = 0x55 ∧ (nextOf (step s)).map (fun t => (t.peek 0xD001, t.peek 0xD000)) = some (0x42, 0x01) := by decide

/-- A loop runs its body as often as the count said before, and a byte outside the store is not written. -/
theorem test_device_loop_and_bound :
    let c : DeviceContext := { k := 0, init := .fixed 0x01 [], offset := 3, value := 0x00, free := 0x00 }
    (DeviceStmt.loop .offset (.put (.lit 0) (.bin .shl (.byte (.lit 0)) (.lit 1)))).run c 1 [] = [(0, 0x08)] ∧
      (DeviceStmt.put (.lit 1) (.lit 7)).run c 1 [] = [] := by decide

/-- 70_reset_and_hazards.md R243: a drawn byte is the free value until it is written. -/
theorem test_drawn_byte : lowRam.peek 0x0005 = Config.ramDraw 0 5 := rfl

theorem test_drawn_byte_written : (lowRam.hostWrite 0x0005 [0x77]).peek 0x0005 = 0x77 := by decide

/-- 2.8, R240: the vector, and every other register kept. -/
theorem test_reset_port :
    let s := { start 0x0200 [] [(0xFFFC, 0x00), (0xFFFD, 0x80)] with a := 0x12, sp := 0x34, p := 0xFF }
    s.resetPort.trace = ⟨0x12, 0x00, 0x00, 0x34, 0x8000, 0xFF⟩ := by decide

/-- 2.8, R240: the vector unmapped. -/
theorem test_reset_unmapped : lowRam.resetPort.trace = ⟨0, 0, 0, 0, 0xFFFF, 0⟩ := by decide

/-- 2.8, R31. -/
theorem test_render :
    [0x00, 0xFF, 0x30, 0x42, 0x81].map renderString = ["nv--dizc", "NV--DIZC", "nv--dizc", "nV--diZc", "Nv--dizC"] := by decide

/-- Program P3's first state: boot writes the code, the pointer and the vector, and starts at 0x0200. -/
theorem test_boot :
    (State.boot Config.default [(0x0200, [0xA2, 0x10]), (0x0300, [0x10, 0x02]), (0xFFFC, [0x00, 0x02])] [.s 0xFF]).trace =
      ⟨0, 0, 0, 0xFF, 0x0200, 0⟩ := by decide

/-- The host's placing of an instruction: LDA abs, placed after reset, is fetched and run. -/
theorem test_with_fetch_word :
    (decodeTableWord 24 0x2040AD, (nextOf (step (State.reset.withFetchWord 24 0x2040AD))).map State.pc) =
      (some (.ldaAbs 0x2040), some 0x0003) := by decide

/-! WellFormed: an ill-formed term for each check. Every instruction is well formed (log 25). -/

theorem test_image_out_of_range : (RamInit.fixed 0x00 [(0x10, 0xAA)]).wellFormed 0x10 = false := by decide

theorem test_image_not_rising : (RamInit.fixed 0x00 [(3, 0xAA), (3, 0xBB)]).wellFormed 0x10 = false := by decide

theorem test_region_ill_formed :
    RegionDecl.wellFormed { start := 0, size := 1, kind := .ram (.fixed 0x00 [(1, 0xAA)]) } = false := by decide

theorem test_device_image_outside_store :
    RegionDecl.wellFormed { start := 0, size := 1, kind := .device (.program { counter with init := .fixed 0x00 [(2, 0xAA)] }) } = false := by
  decide

theorem test_regions_overlap : regionsDisjoint [ramDecl 0x1000 0x100, ramDecl 0x1080 0x100] = false := by decide

theorem test_config_ill_formed : Config.wellFormed { regions := [ramDecl 0 2, ramDecl 1 2], params := Config.default.params } = false := by
  decide

theorem test_config_default_well_formed : Config.default.wellFormed = true := by decide

theorem test_memory_not_rising : Memory.wf .draw 0x10 [(2, 0xAA), (1, 0xBB)] = false := by decide

theorem test_memory_out_of_range : Memory.wf .draw 0x10 [(0x10, 0xAA)] = false := by decide

theorem test_memory_redundant_cell : Memory.wf (.fixed 0x00 []) 0x10 [(1, 0x00)] = false := by decide

/-! Witnesses: for each statement with hypotheses, a state (and operands) that meets all of them. -/

theorem witness_EncodedInstructionDecodesToItself : (Instr.ldaAbs 0x1234).wellFormed = true := rfl

theorem witness_DecodedBytesAreTheEncoding : decode [0xA9, 0x80, 0x33] = .ok (.ldaImm 0x80, [0x33]) := by rfl

theorem witness_DecoderAdmitsExactlyTheTable : (lookupRow 0x00).isNone = true ∧ (lookupRow 0xEA).isSome = true := by decide

theorem witness_StateAtConstructionAndAfterReset :
    withDevice.deviceAt 0xFFFC = false ∧ withDevice.regions.map (fun r => r.decl.kind) = [.device .draw, .ram (.fixed 0x00 [])] ∧
      (regionAt withDevice.regions 0x0000).map (fun r => r.decl.kind) = some (.ram (.fixed 0x00 [])) := by decide

theorem witness_ResetLoadsPcAndNothingElse : lowRam.unmappedAt 0xFFFC = true ∧ lowRam.unmappedAt 0xFFFD = true := by decide

theorem witness_ReadIsFirstMatchingRegionsByte :
    (∃ pre r post, withDevice.regions = pre ++ r :: post ∧ (∀ q ∈ pre, q.inRange 0x0000 = false) ∧ r.inRange 0x0000 = true) ∧
      (∀ q ∈ lowRam.regions, q.inRange 0x8000 = false) :=
  ⟨⟨[constructRegion { start := 0xD000, size := 0x10, kind := .device .draw }], constructRegion (ramDecl 0x0000 0x10000), [], by decide⟩,
    by decide⟩

theorem witness_WriteReachesOnlyFirstMatchingRegion :
    (∃ pre r post, withDevice.regions = pre ++ r :: post ∧ (∀ q ∈ pre, q.inRange 0xFFFF = false) ∧ r.inRange 0xFFFF = true) ∧
      (∀ q ∈ lowRam.regions, q.inRange 0xFFFF = false) :=
  ⟨⟨[constructRegion { start := 0xD000, size := 0x10, kind := .device .draw }], constructRegion (ramDecl 0x0000 0x10000), [], by decide⟩,
    by decide⟩

theorem witness_RamRegionIsAByteArray :
    let r := constructRegion (ramDecl 0xFF00 0x100)
    r.body = .ram (.fixed 0x00 []) [] ∧ r.inRange 0xFF00 = true ∧ r.inRange 0xFFFF = true ∧ (0xFFFF : Word) ≠ 0xFF00 := by decide

theorem witness_RangeTestDoesNotWrap :
    (constructRegion (ramDecl 0x0010 0)).size = 0 ∧ (0x000F : Word).toNat < (constructRegion (ramDecl 0x0010 0)).start.toNat := by
  decide

theorem witness_DeviceRecordsEveryAccess :
    ∃ pre r post log, withDevice.regions = pre ++ r :: post ∧ r.body = .device .draw log ∧
      (∀ q ∈ pre, q.inRange 0xD00F = false) ∧ r.inRange 0xD00F = true :=
  ⟨[], constructRegion { start := 0xD000, size := 0x10, kind := .device .draw }, [constructRegion (ramDecl 0x0000 0x10000)], [], by decide⟩

/-- A described device that has seen an access, and its place in the list of regions. -/
theorem witness_DescribedDeviceFollowsItsProgram :
    ∃ pre r post log, (withCounter.memRead 0xD00F).2.regions = pre ++ r :: post ∧ r.body = .device (.program counter) log ∧
      log ≠ [] ∧ r.inRange 0xD00F = true :=
  ⟨[], ((constructRegion { start := 0xD000, size := 0x10, kind := .device (.program counter) }).accept (.read 0xD00F 0x55)),
    [constructRegion (ramDecl 0x0000 0x10000)], [.access (.read 0xD00F 0x55)], by decide⟩

/-- A write across 0xFFFF: a byte that RAM answers, a byte left alone, a device none of the bytes reaches, and RAM that another
region hides. -/
theorem witness_HostWritePlacesEachByte :
    ([0x01, 0x02] : List Byte).length ≤ 0x10000 ∧ ([0x01, 0x02] : List Byte)[1]? = some 0x02 ∧
      State.reset.ramAt (0xFFFF + BitVec.ofNat 16 1) = true ∧ State.reset.deviceAt 0x0001 = false ∧
      (∀ n, n < 2 → (0x0001 : Word) ≠ 0xFFFF + BitVec.ofNat 16 n) ∧
      withDevice.regions = [] ++ (constructRegion { start := 0xD000, size := 0x10, kind := .device .draw }) ::
        [constructRegion (ramDecl 0x0000 0x10000)] ∧
      (∀ n, n < 2 → (constructRegion { start := 0xD000, size := 0x10, kind := .device .draw }).inRange (0xFFFF + BitVec.ofNat 16 n) = false) ∧
      (constructRegion { start := 0xD000, size := 0x10, kind := .device .draw }).inRange 0xD00F = true ∧
      (constructRegion (ramDecl 0x0000 0x10000)).inRange 0xD00F = true := by decide

theorem witness_StepKeepsMemoryCanonical : State.reset.memWf = true ∧ ∃ t, step State.reset = .next t := ⟨by decide, _, rfl⟩

/-- Meets the hypotheses of StepKeepsConfiguration and StepReachesMemoryOnlyByItsAccesses: a store's step. -/
theorem witness_StepKeepsConfiguration : ∃ t, step (start 0x0200 [0x85, 0x10] []) = .next t := ⟨_, rfl⟩

theorem witness_StepReachesMemoryOnlyByItsAccesses : ∃ t, step (start 0x0200 [0x20, 0x00, 0x30] []) = .next t := ⟨_, rfl⟩

theorem witness_StepLeavesUnwrittenBytes :
    let s := start 0x0200 [0x85, 0x10] []
    s.deviceAt 0x0011 = false ∧ (nextOf (step s)).map State.bus = some [.read 0x0200 0x85, .read 0x0201 0x10, .write 0x0010 0x00] := by
  decide

theorem witness_StepRunsTheDecodedInstruction :
    let s := start 0xFFFE [0xAD, 0x34, 0x12] []
    s.running = true ∧ s.cfg.classRows = .execute ∧
      (State.fetchBytes (encode (.ldaAbs 0x1234)).length s.clearBus).1 = encode (.ldaAbs 0x1234) := by decide

theorem witness_StepFromPlainMemory :
    let s := start 0xFFFE [0xAD, 0x34, 0x12] []
    s.running = true ∧ s.cfg.classRows = .execute ∧ (∀ k, k < 3 → s.deviceAt (s.pc + BitVec.ofNat 16 k) = false) ∧
      decodesTo [s.peek s.pc, s.peek (s.pc + 1), s.peek (s.pc + 2)] (.ldaAbs 0x1234) = true := by decide

/-- One witness for each policy's clause. -/
theorem witness_UnknownOpcodeFollowsPolicy :
    [UnknownPolicy.nop, .fault, .refuse].all (fun u =>
      let s := under (start 0x0200 [0x00] []) u .execute
      s.running && (lookupRow (s.peek s.pc)).isNone && s.cfg.unknownOpcode == u) = true := by decide

theorem witness_RefusedClassRowSetsTheMark :
    let s := under (start 0x0200 [0xA2] []) .nop .refuse
    s.running = true ∧ s.cfg.classRows = .refuse ∧ (Instr.ldxImm 0xFE).basis = .byClass ∧
      s.peek s.pc = (Instr.ldxImm 0xFE).opcode := by decide

theorem witness_StepCompletesExactlyWhenUnmarked :
    State.reset.running = true ∧ faulted.fault = some (0x00, 0x0200) ∧ marked.fault = none ∧ marked.refused = true := by decide

/-- Each clause: a step that sets the fault record, two that set the refusal mark, and one under the default parameters. -/
theorem witness_DefaultParametersNeverMark :
    (nextOf (step (under (start 0x0200 [0x02] []) .fault .execute))).map State.fault = some (some (0x02, 0x0200)) ∧
      (nextOf (step (under (start 0x0200 [0x02] []) .refuse .execute))).map State.refused = some true ∧
      (nextOf (step (under (start 0x0200 [0xA2] []) .nop .refuse))).map State.refused = some true ∧
      State.reset.cfg = { unknownOpcode := .nop, classRows := .execute } ∧ (nextOf (step State.reset)).isSome = true := by decide

theorem witness_HaltIdiomRepeatsForEver :
    (start 0x0200 [0x4C, 0x00, 0x02] []).atHalt = true ∧ (start 0x0200 [0x4C, 0x00, 0x02] []).running = true := by decide

/-- exec answers a next state, whatever the instruction; one of each kind the listing statements name (NzUpdateIsAppliedWhereListed,
EachFlagHasItsWriters, EachRegisterHasItsWriters). -/
theorem witness_NzUpdateIsAppliedWhereListed :
    [Instr.pla, .cpxImm 0x01, .dey, .jsrAbs 0x3000, .plp].all (fun i => (nextOf (exec i State.reset)).isSome) = true := by decide

theorem witness_EachFlagHasItsWriters :
    (nextOf (exec .clv State.reset)).isSome = true ∧
      Instr.clv.mnemonic ∉ [Mnemonic.clc, .sec, .cmp, .cpx, .cpy, .plp] ∧
      Instr.clv.mnemonic ∉ [Mnemonic.lda, .ldx, .ldy, .tax, .txa, .tay, .tya, .inx, .dex, .iny, .dey, .pla, .cmp, .cpx, .cpy, .plp] ∧
      Instr.clv.mnemonic ∉ [Mnemonic.cli, .sei, .plp] ∧ Instr.clv.mnemonic ∉ [Mnemonic.cld, .sed, .plp] ∧
      Instr.clv.mnemonic ≠ .plp ∧ Instr.sec.mnemonic ∉ [Mnemonic.clv, .plp] := by decide

theorem witness_StatusSteersNothingButPhp : Instr.plp ≠ .php ∧ (nextOf (exec .plp State.reset)).isSome = true := by decide

theorem witness_EachRegisterHasItsWriters :
    (nextOf (exec .nop State.reset)).isSome = true ∧
      Instr.nop.mnemonic ∉ [Mnemonic.lda, .txa, .tya, .pla, .ldx, .tax, .inx, .dex, .ldy, .tay, .iny, .dey] ∧
      Instr.nop.mnemonic ∉ [Mnemonic.pha, .php, .pla, .plp, .jsr, .rts, .jmp, .sta, .stx, .sty] := by decide

theorem witness_EachRegisterHasItsReaders :
    (nextOf (exec (.ldaZp 0x10) State.reset)).isSome = true ∧
      (Instr.ldaZp 0x10).mnemonic ∉ [Mnemonic.sta, .cmp, .tax, .tay, .pha, .stx, .cpx, .txa, .inx, .dex] ∧
      (Instr.ldaZp 0x10).mnemonic ∉ [Mnemonic.sty, .cpy, .tya, .iny, .dey, .php, .pla, .plp, .jsr, .rts] ∧
      (Instr.ldaZp 0x10).mode ≠ .zpx ∧ (Instr.ldaZp 0x10).mode ≠ .absx ∧ (Instr.ldaZp 0x10).mode ≠ .absy := by decide

/-- The hypotheses inside `RunsFrom`, `Completes`, `LoadsByte` and `StoresByte`, which every result statement uses: an instruction fetched
from RAM and from a device-free byte, a class row under execute, an unmapped and a RAM effective address. -/
theorem witness_RunsFrom_and_effects :
    let s := start 0x0200 [0xA9, 0x80] []
    s.running = true ∧ s.cfg.classRows = .execute ∧ (State.fetchBytes 2 s.clearBus).1 = [0xA9, 0x80] ∧
      s.deviceAt 0x0000 = false ∧ (0x0000 : Word) ∉ [eaZp 0x10] ∧ s.ramAt (eaZp 0x10) = true ∧
      lowRam.unmappedAt (eaAbs 0x9000) = true ∧ (lowRam.setSp 0x05).ramAt (stackAddr 0x05) = true := by decide

/-- An unmapped stack page and an unmapped pointer: the last clauses of the stack and control statements. -/
theorem witness_unmapped_stack_and_pointer :
    let s := machineOver [ramDecl 0x8000 0x8000]
    s.unmappedAt (stackAddr 0x00) = true ∧ s.unmappedAt (stackAddr 0xFF) = true ∧ s.unmappedAt (stackAddr 0x01) = true ∧
      s.unmappedAt (stackAddr 0x02) = true ∧ s.unmappedAt 0x1234 = true ∧ s.unmappedAt 0x1235 = true := by decide

/-- S at the wrap. -/
theorem witness_PushThenPullRestores :
    State.reset.ramAt (stackAddr State.reset.sp) = true ∧ (machineOver [ramDecl 0x8000 0x8000]).unmappedAt (stackAddr 0x00) = true := by
  decide

theorem witness_CallThenReturnComesBack :
    State.reset.ramAt (stackAddr State.reset.sp) = true ∧ State.reset.ramAt (stackAddr (State.reset.sp - 1#8)) = true := by decide

end Sys2Proof.Tests
end

section
/-! What a step and an instruction leave unchanged (00_scope.md R15): bytes, registers, marks, parameters. -/

namespace Sys2Proof.Proofs

open Sys2Proof.Machine Sys2Proof.Laws

/-! An unknown opcode's policy reaches PC and the marks only (46_nop_unknown.md R201). -/

@[simp] theorem unknownOpcode_bus (s : State) (op : Byte) (addr : Word) : (s.unknownOpcode op addr).bus = s.bus := by
  unfold State.unknownOpcode
  split <;> rfl

@[simp] theorem unknownOpcode_regions (s : State) (op : Byte) (addr : Word) :
    (s.unknownOpcode op addr).regions = s.regions := by
  unfold State.unknownOpcode
  split <;> rfl

@[simp] theorem unknownOpcode_cfg (s : State) (op : Byte) (addr : Word) : (s.unknownOpcode op addr).cfg = s.cfg := by
  unfold State.unknownOpcode
  split <;> rfl

/-! The accesses of a step. -/

/-- The opcode fetch is one read, at PC. -/
theorem fetchOpcode_reaches (s : State) :
    Reaches 1 s.clearBus s.clearBus.fetch8.2 [.read s.pc (s.peek s.pc)] :=
  ⟨le_rfl, rfl, rfl, rfl, rfl, rfl⟩

/-- A completed step's accesses: the opcode fetch, then at most four more. The Address Space is the one before with exactly these
delivered in order, and the parameters stay. -/
theorem step_accesses {s t : State} (h : step s = .next t) :
    ∃ accs, accs.length ≤ 4 ∧ t.bus = .read s.pc (s.peek s.pc) :: accs ∧
      t.regions = t.bus.foldl deliver s.regions ∧ t.cfg = s.cfg := by
  obtain ⟨-, -, ⟨-, rfl⟩ | ⟨row, -, ⟨-, rfl⟩ | ⟨-, hexec⟩⟩⟩ := step_cases h
  · exact ⟨[], by simp⟩
  · exact ⟨[], by simp⟩
  · obtain ⟨operand, hoperand⟩ := fetchOperand_reaches s.clearBus.fetch8.2 row.build
    obtain ⟨_, own, hnext, hown⟩ := exec_reaches _ _
    cases hexec.symm.trans hnext
    have hall := ((fetchOpcode_reaches s).trans hoperand).trans hown
    have hbus : t.bus = .read s.pc (s.peek s.pc) :: (operand ++ own) := by simpa using hall.bus
    refine ⟨operand ++ own, ?_, hbus, ?_, hall.cfg⟩
    · simpa using Nat.add_le_add hoperand.few hown.few
    · rw [hbus]
      simpa using hall.regions

/-- Settles O19: the step's accesses, delivered in order, leave each byte of RAM and open bus that no write among them names. -/
theorem stepLeavesUnwrittenBytes : Obligations.StepLeavesUnwrittenBytes := by
  unfold Obligations.StepLeavesUnwrittenBytes
  intro s t a hstep hplain hunwritten
  obtain ⟨_, -, -, hregions, -⟩ := step_accesses hstep
  calc t.peek a = peekFrom 0 (t.bus.foldl deliver s.regions) a := by rw [← hregions]; rfl
    _ = s.peek a := foldl_deliver_peek t.bus 0 hplain hunwritten

/-! What one instruction leaves: for each register the forms that write it are set aside by name, and the meaning of every other
form has the register it started with. -/

section Writers

variable {i : Instr} {s t : State}

theorem exec_keeps_a (h : exec i s = .next t) (hi : i.mnemonic ∉ [.lda, .txa, .tya, .pla]) : t.a = s.a := by
  cases i
  case ldaImm | ldaZp | ldaZpx | ldaAbs | ldaAbsx | ldaAbsy | txa | tya | pla => simp [Instr.mnemonic] at hi
  all_goals cases h; rfl

theorem exec_keeps_x (h : exec i s = .next t) (hi : i.mnemonic ∉ [.ldx, .tax, .inx, .dex]) : t.x = s.x := by
  cases i
  case ldxImm | ldxZp | ldxAbs | ldxAbsy | tax | inx | dex => simp [Instr.mnemonic] at hi
  all_goals cases h; rfl

theorem exec_keeps_y (h : exec i s = .next t) (hi : i.mnemonic ∉ [.ldy, .tay, .iny, .dey]) : t.y = s.y := by
  cases i
  case ldyImm | ldyZp | ldyZpx | ldyAbs | ldyAbsx | tay | iny | dey => simp [Instr.mnemonic] at hi
  all_goals cases h; rfl

theorem exec_keeps_sp (h : exec i s = .next t) (hi : i.mnemonic ∉ [.pha, .php, .pla, .plp, .jsr, .rts]) :
    t.sp = s.sp := by
  cases i
  case pha | php | pla | plp | jsrAbs | rts => simp [Instr.mnemonic] at hi
  all_goals cases h; rfl

theorem exec_keeps_pc (h : exec i s = .next t) (hi : i.mnemonic ∉ [.jmp, .jsr, .rts]) : t.pc = s.pc := by
  cases i
  case jmpAbs | jmpInd | jsrAbs | rts => simp [Instr.mnemonic] at hi
  all_goals cases h; rfl

theorem exec_keeps_marks (h : exec i s = .next t) : t.fault = s.fault ∧ t.refused = s.refused ∧ t.cfg = s.cfg := by
  obtain ⟨_, _, hnext, hreach⟩ := exec_reaches i s
  cases h.symm.trans hnext
  exact ⟨hreach.fault, hreach.refused, hreach.cfg⟩

/-- Two reads in a row, the second wherever the first leads. -/
theorem bytesKept_read_read (s : State) (a b : Word) (v w : Byte) :
    BytesKept s ((s.access (.read a v)).access (.read b w)) [] :=
  bytesKept_trans (bytesKept_read s a v) (bytesKept_read _ b w) (access_deviceAt s _)

/-- An instruction that neither stores nor pushes makes reads only: none, one, or the two of a pointer or a return address. -/
theorem exec_keeps_bytes (h : exec i s = .next t) (hi : i.mnemonic ∉ [.sta, .stx, .sty, .pha, .php, .jsr]) :
    BytesKept s t [] := by
  cases i
  case staZp | staZpx | staAbs | staAbsx | staAbsy | stxZp | stxAbs | styZp | styZpx | styAbs | pha | php | jsrAbs =>
    simp [Instr.mnemonic] at hi
  case jmpInd | rts => cases h; exact bytesKept_read_read s _ _ _ _
  case ldaZp | ldaZpx | ldaAbs | ldaAbsx | ldaAbsy | ldxZp | ldxAbs | ldxAbsy | ldyZp | ldyZpx | ldyAbs | ldyAbsx |
      cmpZp | cmpZpx | cmpAbs | cmpAbsx | cmpAbsy | cpxZp | cpxAbs | cpyZp | cpyAbs | pla | plp =>
    cases h; exact bytesKept_read s _ _
  all_goals cases h; exact bytesKept_refl s

end Writers

/-- Settles O31: each register by its own case split over the forms, memory by the reads an instruction makes. -/
theorem eachRegisterHasItsWriters : Obligations.EachRegisterHasItsWriters := by
  unfold Obligations.EachRegisterHasItsWriters
  intro i s t h
  exact ⟨exec_keeps_a h, exec_keeps_x h, exec_keeps_y h, exec_keeps_sp h, exec_keeps_pc h, exec_keeps_bytes h,
    exec_keeps_marks h⟩

end Sys2Proof.Proofs
end

section
/-! The register file, the status byte and the stack operations (10_state.md R31 to R34, R42). -/

namespace Sys2Proof.Proofs

open Sys2Proof.Machine Sys2Proof.Laws

/-! Construction. -/

@[simp] theorem flagGet_zero (f : Flag) : flagGet 0#8 f = false := BitVec.getLsbD_zero

/-- Settles O5: a constructed state's registers are literals, and every bit of the zero byte is clear. -/
theorem constructionZeroesTheRegisterFile : Obligations.ConstructionZeroesTheRegisterFile := by
  unfold Obligations.ConstructionZeroesTheRegisterFile
  intro c
  have hp : (State.construct c).p = 0#8 := rfl
  rw [hp]
  exact ⟨rfl, rfl, rfl, rfl, rfl, rfl, flagGet_zero, BitVec.getLsbD_zero, BitVec.getLsbD_zero⟩

/-! The status byte. -/

/-- Setting a flag writes the bit at the flag's position and keeps the seven others. -/
theorem flagSet_oneBit (p : Byte) (f : Flag) (b : Bool) : OneBit (flagBit f) b p (flagSet p f b) :=
  fun k hk => flagSet_getLsbD p f b k hk

/-- Settles O27: get is that bit by definition, and one lemma over the flags gives what set does to each bit. -/
theorem flagSetWritesThatBitOnly : Obligations.FlagSetWritesThatBitOnly := by
  unfold Obligations.FlagSetWritesThatBitOnly
  intro p b
  exact ⟨fun _ => rfl, flagSet_oneBit p .c b, flagSet_oneBit p .z b, flagSet_oneBit p .i b, flagSet_oneBit p .d b,
    flagSet_oneBit p .v b, flagSet_oneBit p .n b, rfl, fun s f => setFlag_eq s f b⟩

@[simp] theorem renderString_toList (p : Byte) : (renderString p).toList = renderChars p := String.toList_ofList

/-- Settles O33: the characters are `renderChars`, whose flags are the bits at their positions. -/
theorem renderShowsTheSixFlags : Obligations.RenderShowsTheSixFlags := by
  unfold Obligations.RenderShowsTheSixFlags
  exact ⟨renderString_toList, by decide⟩

/-! The stack. -/

/-- Settles O35: the two bytes are S - 1 and S + 1 modulo 2^8. -/
theorem pushAndPullUsePageOne : Obligations.PushAndPullUsePageOne := by
  unfold Obligations.PushAndPullUsePageOne
  intro s v
  exact ⟨s.sp + 1#8, s.sp - 1#8, stackAddr_toNat s.sp, sp_dec_toNat s.sp, sp_inc_toNat s.sp,
    stackAddr_toNat (s.sp + 1#8), rfl, rfl⟩

end Sys2Proof.Proofs
end

section
/-! The Address Space: a step reaches it by the accesses it lists (20_memory.md R63), the first region that holds an address
answers (R53, R55), a RAM region is a byte array (R57). -/

namespace Sys2Proof.Proofs

open Sys2Proof.Machine Sys2Proof.Laws

/-- Settles O18: the accesses of a completed step are the opcode fetch and at most four more. -/
theorem stepReachesMemoryOnlyByItsAccesses : Obligations.StepReachesMemoryOnlyByItsAccesses := by
  unfold Obligations.StepReachesMemoryOnlyByItsAccesses
  intro s t hstep
  obtain ⟨accs, hfew, hbus, hregions, -⟩ := step_accesses hstep
  have hlen : t.bus.length = accs.length + 1 := by rw [hbus, List.length_cons]
  exact ⟨hregions, by rw [hbus, List.head?_cons], by omega⟩

/-! The first match. -/

section FirstMatch

variable {pre post : List Region} {r : Region} {a : Word}

theorem regionAt_eq_none {rs : List Region} (h : ∀ q ∈ rs, q.inRange a = false) : regionAt rs a = none :=
  List.find?_eq_none.2 fun q hq => by simp [h q hq]

/-- The regions before the first match only move its number on. -/
theorem peekFrom_first_match (k : Nat) (hpre : ∀ q ∈ pre, q.inRange a = false) (hr : r.inRange a = true) :
    peekFrom k (pre ++ r :: post) a = r.byteAt (k + pre.length) a := by
  rw [peekFrom_append_miss k _ a hpre, peekFrom, if_pos hr]

theorem deliver_first_match {acc : BusAccess} (hpre : ∀ q ∈ pre, q.inRange (accessAddr acc) = false)
    (hr : r.inRange (accessAddr acc) = true) : deliver (pre ++ r :: post) acc = pre ++ r.accept acc :: post := by
  rw [deliver_append_miss _ acc hpre, deliver, if_pos hr]

end FirstMatch

/-- Settles O10: the lookup passes over the regions that miss, to the first match or to open bus. -/
theorem readIsFirstMatchingRegionsByte : Obligations.ReadIsFirstMatchingRegionsByte := by
  unfold Obligations.ReadIsFirstMatchingRegionsByte
  intro s a
  constructor
  · intro pre r post hsplit hpre hr
    calc (s.memRead a).1 = peekFrom 0 (pre ++ r :: post) a := by rw [← hsplit]; rfl
      _ = r.byteAt pre.length a := by rw [peekFrom_first_match 0 hpre hr, Nat.zero_add]
  · intro hnone
    have hat := regionAt_eq_none hnone
    exact ⟨peekFrom_unmapped 0 hat, deliver_unmapped hat⟩

/-- Settles O11: the delivery passes over the regions that miss and stops at the first match. -/
theorem writeReachesOnlyFirstMatchingRegion : Obligations.WriteReachesOnlyFirstMatchingRegion := by
  unfold Obligations.WriteReachesOnlyFirstMatchingRegion
  intro s a v
  constructor
  · intro pre r post hsplit hpre hr
    rw [memWrite_eq, access_regions, hsplit]
    exact deliver_first_match hpre hr
  · intro hnone
    exact deliver_unmapped (regionAt_eq_none hnone)

/-! RAM. -/

theorem byteAt_of_ram {r : Region} {init : RamInit} {mem : Memory} (k : Nat) (a : Word) (h : r.body = .ram init mem) :
    r.byteAt k a = ramByte k init mem (a.toNat - r.start.toNat) := by
  simp [Region.byteAt, Region.offset, h]

/-- A store in which nothing is written reads as its image. -/
theorem ramByte_fixed_nil (k : Nat) (fill : Byte) (image : List Host.Cell) (off : Nat) :
    ramByte k (.fixed fill image) [] off = (Memory.get? image off).getD fill := rfl

/-- Settles O12: read after write by `byteAt_write`, and a constructed region has nothing written. -/
theorem ramRegionIsAByteArray : Obligations.RamRegionIsAByteArray := by
  unfold Obligations.RamRegionIsAByteArray
  constructor
  · intro k r init mem a b v w hbody ha hb
    have hram : r.isRam = true := by simp [Region.isRam, hbody]
    refine ⟨byteAt_of_ram k a hbody, ?_, ?_, accept_read_ram a w hram⟩
    · rw [byteAt_write k a a v hram ha ha, if_pos rfl]
    · intro hne
      rw [byteAt_write k a b v hram ha hb, if_neg hne]
  · intro k start size fill image a
    rw [byteAt_of_ram k a rfl, ramByte_fixed_nil]
    rfl

end Sys2Proof.Proofs
end

section
/-! A step from bytes of RAM or open bus (30_encoding.md R80): the row the decoded bytes name, and the fetch of its bytes. -/

namespace Sys2Proof.Proofs

open Sys2Proof.Machine Sys2Proof.Laws

/-! The table's rows, each by what it builds. -/

/-- The row's opcode and the bytes of `operand` encode i, and the row and i agree on the basis. -/
structure RowEncodes (row : Row) (operand : List Byte) (i : Instr) : Prop where
  bytes : encode i = row.opcode :: operand
  basis : i.basis = row.basis

/-- Every instruction a row can build is encoded by the row's opcode and the operand bytes it is built from. -/
def RowIsFaithful (row : Row) : Prop :=
  match row.build with
  | .implied i => RowEncodes row [] i
  | .byte f => ∀ v, RowEncodes row [v] (f v)
  | .word f => ∀ w, RowEncodes row [loByte w, hiByte w] (f w)

/-- Row by row: the instruction's own opcode, operand bytes and basis are the row's. -/
theorem opcodeTable_faithful : ∀ row ∈ opcodeTable, RowIsFaithful row := by
  simp only [opcodeTable, List.forall_mem_append, loadRows, storeRows, compareRows, stackRows, controlRows,
    transferRows, flagRows, nopRows, List.forall_mem_cons, List.not_mem_nil, false_imp_iff, implies_true, and_true,
    RowIsFaithful]
  and_intros
  all_goals intros; exact ⟨rfl, rfl⟩

theorem lookupRow_faithful {op : Byte} {row : Row} (h : lookupRow op = some row) : RowIsFaithful row :=
  opcodeTable_faithful row (List.mem_of_find?_eq_some h)

/-- What decoding an opcode and two more bytes says: the opcode's row, and which of the two bytes its format takes. -/
theorem decode_three {op b1 b2 : Byte} {i : Instr} {rest : List Byte} (h : decode [op, b1, b2] = .ok (i, rest)) :
    ∃ row, lookupRow op = some row ∧ i.basis = row.basis ∧
      ((row.build = .implied i ∧ (encode i).length = 1) ∨
       (∃ f, row.build = .byte f ∧ i = f b1 ∧ (encode i).length = 2) ∨
       (∃ f, row.build = .word f ∧ i = f (concat16 b2 b1) ∧ (encode i).length = 3)) := by
  rw [decode] at h
  cases hrow : lookupRow op with
  | none => rw [hrow] at h; cases h
  | some row =>
    have hfaith := lookupRow_faithful hrow
    unfold RowIsFaithful at hfaith
    rw [hrow] at h
    cases hbuild : row.build with
    | implied j =>
      simp only [hbuild] at h hfaith
      cases h
      exact ⟨row, rfl, hfaith.basis, .inl ⟨hbuild, by rw [hfaith.bytes]; rfl⟩⟩
    | byte f =>
      simp only [hbuild] at h hfaith
      cases h
      exact ⟨row, rfl, (hfaith b1).basis, .inr (.inl ⟨f, hbuild, rfl, by rw [(hfaith b1).bytes]; rfl⟩)⟩
    | word f =>
      simp only [hbuild] at h hfaith
      cases h
      exact ⟨row, rfl, (hfaith _).basis, .inr (.inr ⟨f, hbuild, rfl, by rw [(hfaith _).bytes]; rfl⟩)⟩

/-! The fetch. -/

/-- The reads of the n bytes at PC, each answering the byte that stands there. -/
def readsAtPc (s : State) (n : Nat) : List BusAccess :=
  (List.range n).map fun k => .read (s.pc + BitVec.ofNat 16 k) (s.peek (s.pc + BitVec.ofNat 16 k))

/-- A step's state once n bytes of plain memory are fetched: PC stands past them, and their reads are the accesses. -/
def pastBytes (s : State) (n : Nat) : State :=
  { s with pc := s.pc + BitVec.ofNat 16 n, bus := readsAtPc s n }

theorem readsAtPc_succ (s : State) (n : Nat) : readsAtPc s (n + 1) = readsAtPc s n ++
    [.read (s.pc + BitVec.ofNat 16 n) (s.peek (s.pc + BitVec.ofNat 16 n))] := by
  simp [readsAtPc, List.range_succ]

theorem readsAtPc_three_take (s : State) {n : Nat} (h : n ≤ 3) :
    [BusAccess.read s.pc (s.peek s.pc), .read (s.pc + 1#16) (s.peek (s.pc + 1#16)),
      .read (s.pc + 2#16) (s.peek (s.pc + 2#16))].take n = readsAtPc s n := by
  have hthree : readsAtPc s 3 = [.read s.pc (s.peek s.pc), .read (s.pc + 1#16) (s.peek (s.pc + 1#16)),
      .read (s.pc + 2#16) (s.peek (s.pc + 2#16))] := by simp [readsAtPc, List.range_succ]
  rw [← hthree, readsAtPc, ← List.map_take, List.take_range, Nat.min_eq_left h, readsAtPc]

theorem pastBytes_zero (s : State) : pastBytes s 0 = s.clearBus := by
  simp [pastBytes, readsAtPc, State.clearBus]

/-- A fetch from RAM or open bus leads from n bytes to the next. -/
theorem fetch8_pastBytes {s : State} {n : Nat} (h : s.deviceAt (s.pc + BitVec.ofNat 16 n) = false) :
    (pastBytes s n).fetch8 = (s.peek (s.pc + BitVec.ofNat 16 n), pastBytes s (n + 1)) := by
  have hplain : (pastBytes s n).deviceAt (pastBytes s n).pc = false := h
  have hpc : s.pc + BitVec.ofNat 16 (n + 1) = s.pc + BitVec.ofNat 16 n + 1#16 := by
    rw [BitVec.ofNat_add, BitVec.add_assoc]
  refine Prod.ext rfl ?_
  rw [fetch8_snd, access_read_plain _ hplain]
  unfold pastBytes
  rw [hpc, readsAtPc_succ]
  rfl

/-- An unmarked machine's step at a row that is not refused runs the instruction its operand bytes complete. -/
theorem step_row {s : State} {row : Row} (hrun : s.running = true) (hrow : lookupRow (s.peek s.pc) = some row)
    (hclass : row.basis = .byClass → s.cfg.classRows = .execute) :
    step s = exec (s.clearBus.fetch8.2.fetchOperand row.build).1 (s.clearBus.fetch8.2.fetchOperand row.build).2 := by
  have hnot : classRefused s.clearBus.fetch8.2.cfg row.basis = false := by
    cases hb : row.basis with
    | byClass => simp [classRefused, hclass hb]
    | named | decision => rfl
  rw [step_running hrun, State.runOpcode, hrow]
  exact if_neg (Bool.eq_false_iff.1 hnot)

/-- Settles O21: the decoded bytes name the row, and each fetch of its one, two or three bytes moves PC and lists a read. -/
theorem stepFromPlainMemory : Obligations.StepFromPlainMemory := by
  unfold Obligations.StepFromPlainMemory
  rintro s i _ _ _ rest hrun hclass hplain rfl rfl rfl hdec
  obtain ⟨row, hrow, hbasis, hshape⟩ := decode_three hdec
  have hfetch : ∀ k, k < (encode i).length →
      (pastBytes s k).fetch8 = (s.peek (s.pc + BitVec.ofNat 16 k), pastBytes s (k + 1)) :=
    fun k hk => fetch8_pastBytes (hplain k hk)
  rw [step_row hrun hrow (hbasis ▸ hclass), ← pastBytes_zero]
  obtain ⟨hbuild, hlen⟩ | ⟨f, hbuild, rfl, hlen⟩ | ⟨f, hbuild, rfl, hlen⟩ := hshape
  all_goals rw [hlen] at hfetch ⊢; rw [readsAtPc_three_take s (by decide), hbuild, hfetch 0 (by decide)]
  · rfl
  · rw [State.fetchOperand, hfetch 1 (by decide)]
    rfl
  · rw [State.fetchOperand, State.fetch16, hfetch 1 (by decide), hfetch 2 (by decide)]
    rfl

end Sys2Proof.Proofs
end

section
/-! The marks of a step (46_nop_unknown.md R201, 30_encoding.md R84): which opcode and which parameter set each. -/

namespace Sys2Proof.Proofs

open Sys2Proof.Machine Sys2Proof.Laws

/-! The row of an instruction. -/

section TableRows

open Sys2Proof.Laws.TableRow

/-- The laws of the 61 constructors as one. -/
theorem tableRow : ∀ i : Instr, Statement i
  | .ldaImm v => ldaImm v | .ldaZp v => ldaZp v | .ldaZpx v => ldaZpx v
  | .ldaAbs w => ldaAbs w | .ldaAbsx w => ldaAbsx w | .ldaAbsy w => ldaAbsy w
  | .ldxImm v => ldxImm v | .ldxZp v => ldxZp v | .ldxAbs w => ldxAbs w | .ldxAbsy w => ldxAbsy w
  | .ldyImm v => ldyImm v | .ldyZp v => ldyZp v | .ldyZpx v => ldyZpx v
  | .ldyAbs w => ldyAbs w | .ldyAbsx w => ldyAbsx w
  | .staZp v => staZp v | .staZpx v => staZpx v
  | .staAbs w => staAbs w | .staAbsx w => staAbsx w | .staAbsy w => staAbsy w
  | .stxZp v => stxZp v | .stxAbs w => stxAbs w
  | .styZp v => styZp v | .styZpx v => styZpx v | .styAbs w => styAbs w
  | .cmpImm v => cmpImm v | .cmpZp v => cmpZp v | .cmpZpx v => cmpZpx v
  | .cmpAbs w => cmpAbs w | .cmpAbsx w => cmpAbsx w | .cmpAbsy w => cmpAbsy w
  | .cpxImm v => cpxImm v | .cpxZp v => cpxZp v | .cpxAbs w => cpxAbs w
  | .cpyImm v => cpyImm v | .cpyZp v => cpyZp v | .cpyAbs w => cpyAbs w
  | .pha => pha | .php => php | .pla => pla | .plp => plp
  | .jmpAbs w => jmpAbs w | .jmpInd w => jmpInd w | .jsrAbs w => jsrAbs w | .rts => rts
  | .tax => tax | .txa => txa | .tay => tay | .tya => tya
  | .inx => inx | .dex => dex | .iny => iny | .dey => dey
  | .clc => clc | .sec => sec | .cli => cli | .sei => sei | .clv => clv | .cld => cld | .sed => sed
  | .nop => nop

end TableRows

/-! A refused class row. -/

theorem classRefused_iff (cfg : Params) (b : Basis) :
    classRefused cfg b = true ↔ b = .byClass ∧ cfg.classRows = .refuse := by
  simp [classRefused]

/-- An unmarked machine's step at a row that is refused ends after the opcode fetch, with the refusal mark. -/
theorem step_refused_row {s : State} {row : Row} (hrun : s.running = true) (hrow : lookupRow (s.peek s.pc) = some row)
    (hclass : classRefused s.cfg row.basis = true) : step s = .next (s.clearBus.fetch8.2.markRefused s.pc) := by
  rw [step_running hrun, State.runOpcode, hrow]
  exact if_pos hclass

/-- Settles O23: the instruction's row has its basis, so CLASS_ROWS refuses it. -/
theorem refusedClassRowSetsTheMark : Obligations.RefusedClassRowSetsTheMark := by
  unfold Obligations.RefusedClassRowSetsTheMark
  intro s i hrun hrefuse hbasis hop
  obtain ⟨row, hrow, -, hrowBasis, -⟩ := tableRow i
  have hclass : classRefused s.cfg row.basis = true :=
    (classRefused_iff s.cfg row.basis).2 ⟨hrowBasis.trans hbasis, hrefuse⟩
  rw [← hop] at hrow ⊢
  exact step_refused_row hrun hrow hclass

/-! What sets each mark. -/

theorem unknownOpcode_fault (s : State) (op : Byte) (addr : Word) :
    (s.unknownOpcode op addr).fault = if s.cfg.unknownOpcode = .fault then some (op, addr) else s.fault := by
  cases h : s.cfg.unknownOpcode <;> simp [State.unknownOpcode, h]

theorem unknownOpcode_refused (s : State) (op : Byte) (addr : Word) :
    (s.unknownOpcode op addr).refused = (s.cfg.unknownOpcode == .refuse || s.refused) := by
  cases h : s.cfg.unknownOpcode <;> simp [State.unknownOpcode, h]

/-- The marks after a completed step: the policy's at an unknown opcode, else the refusal mark of a refused row or none. -/
theorem step_marks {s t : State} (h : step s = .next t) :
    (lookupRow (s.peek s.pc) = none ∧
      t.fault = (if s.cfg.unknownOpcode = .fault then some (s.peek s.pc, s.pc) else none) ∧
      t.refused = (s.cfg.unknownOpcode == .refuse)) ∨
    ∃ row, lookupRow (s.peek s.pc) = some row ∧ t.fault = none ∧ t.refused = classRefused s.cfg row.basis := by
  obtain ⟨hfault, hrefused, ⟨hrow, rfl⟩ | ⟨row, hrow, ⟨hclass, rfl⟩ | ⟨hclass, hexec⟩⟩⟩ := step_cases h
  · exact .inl ⟨hrow, by simp [unknownOpcode_fault, hfault], by simp [unknownOpcode_refused, hrefused]⟩
  · exact .inr ⟨row, hrow, hfault, hclass.symm⟩
  · obtain ⟨_, hoperand⟩ := fetchOperand_reaches s.clearBus.fetch8.2 row.build
    obtain ⟨hownFault, hownRefused, -⟩ := exec_keeps_marks hexec
    exact .inr ⟨row, hrow, hownFault.trans (hoperand.fault.trans hfault),
      hownRefused.trans (hoperand.refused.trans (hrefused.trans hclass.symm))⟩

theorem step_sets_fault {s t : State} (h : step s = .next t) (ht : t.fault ≠ none) :
    s.cfg.unknownOpcode = .fault ∧ lookupRow (s.peek s.pc) = none ∧ t.fault = some (s.peek s.pc, s.pc) := by
  obtain ⟨hrow, hfault, -⟩ | ⟨_, -, hfault, -⟩ := step_marks h
  · by_cases hpolicy : s.cfg.unknownOpcode = .fault
    · exact ⟨hpolicy, hrow, hfault.trans (if_pos hpolicy)⟩
    · exact absurd (hfault.trans (if_neg hpolicy)) ht
  · exact absurd hfault ht

theorem step_sets_refused {s t : State} (h : step s = .next t) (ht : t.refused = true) :
    (s.cfg.unknownOpcode = .refuse ∧ lookupRow (s.peek s.pc) = none) ∨
      (s.cfg.classRows = .refuse ∧ ∃ row, lookupRow (s.peek s.pc) = some row ∧ row.basis = .byClass) := by
  obtain ⟨hrow, -, hrefused⟩ | ⟨row, hrow, -, hrefused⟩ := step_marks h
  · exact .inl ⟨eq_of_beq (hrefused.symm.trans ht), hrow⟩
  · obtain ⟨hbasis, hclass⟩ := (classRefused_iff s.cfg row.basis).1 (hrefused.symm.trans ht)
    exact .inr ⟨hclass, row, hrow, hbasis⟩

theorem running_iff (s : State) : s.running = true ↔ s.fault = none ∧ s.refused = false := by
  simp [State.running]

/-- Settles O25: each mark needs a parameter that is not the default, so under the defaults neither is set. -/
theorem defaultParametersNeverMark : Obligations.DefaultParametersNeverMark := by
  unfold Obligations.DefaultParametersNeverMark
  intro s t hstep
  refine ⟨step_sets_fault hstep, step_sets_refused hstep, fun hcfg => (running_iff t).2 ⟨?_, ?_⟩⟩
  · by_contra hfault
    obtain ⟨hpolicy, -⟩ := step_sets_fault hstep hfault
    simp [hcfg] at hpolicy
  · by_contra hrefused
    obtain ⟨hpolicy, -⟩ | ⟨hclass, -⟩ := step_sets_refused hstep (Bool.eq_true_of_not_eq_false hrefused)
    · simp [hcfg] at hpolicy
    · simp [hcfg] at hclass

end Sys2Proof.Proofs
end

section
/-! The compare rule (41_compare.md R140). -/

namespace Sys2Proof.Proofs

open Sys2Proof.Machine Sys2Proof.Laws

/-- The rule bit by bit: Carry from the unsigned comparison, then the NZ update of the register itself. -/
theorem compareFlags_compareBits (p r m : Byte) : CompareBits r m p (compareFlags p r m) :=
  fun k hk => compareFlags_getLsbD p r m k hk

/-- CMP immediate writes P alone. -/
theorem exec_cmpImm (s : State) (m : Byte) : exec (.cmpImm m) s = .next { s with p := compareFlags s.p s.a m } := rfl

/-- Settles O42: the rule holds bit by bit for every P, and CMP immediate puts its result in P. -/
theorem cmpImmediateFollowsTheCompareRule : Obligations.CmpImmediateFollowsTheCompareRule := by
  unfold Obligations.CmpImmediateFollowsTheCompareRule
  exact ⟨compareFlags_compareBits,
    fun s m => ⟨compareFlags s.p s.a m, compareFlags_compareBits s.p s.a m, exec_cmpImm s m⟩⟩

end Sys2Proof.Proofs
end

section
/-! The fetch of an instruction's bytes from any memory (30_encoding.md R80, R97): its row's operand bytes complete it. -/

namespace Sys2Proof.Proofs

open Sys2Proof.Machine Sys2Proof.Laws

/-- Bytes from which a row builds i, fetched at PC, are the operand fetch of the row: i, and the state after the reads. -/
theorem fetchOperand_of_fetchBytes {s t : State} {b : Build} {op : Byte} {bytes : List Byte} {i : Instr}
    (hbuild : b.fromBytes op bytes = .ok (i, [])) (hfetch : State.fetchBytes bytes.length s = (bytes, t)) :
    s.fetchOperand b = (i, t) := by
  match b, bytes, hbuild, hfetch with
  | .implied _, [], hbuild, hfetch | .byte _, [_], hbuild, hfetch | .word _, [_, _], hbuild, hfetch =>
    cases hbuild
    cases hfetch
    rfl

/-- An instruction's encoding, fetched at PC, runs the instruction: the opcode names its row, and the row builds it. -/
theorem runsFrom_encode (i : Instr) : RunsFrom (encode i) i := by
  refine ⟨rfl, fun s hrun hclass hbytes => ?_⟩
  obtain ⟨row, hrow, -, hbasis, hbuild, -⟩ := tableRow i
  obtain ⟨hop, hoperand⟩ := List.cons.inj hbytes
  have hfetch := fetchOperand_of_fetchBytes (s := s.clearBus.fetch8.2)
    (by simpa using hbuild []) (Prod.ext hoperand rfl)
  have hpeek : s.peek s.pc = i.opcode := hop
  rw [step_row hrun (hpeek ▸ hrow) (hbasis ▸ hclass), hfetch]
  rfl

end Sys2Proof.Proofs
end

section
/-! The stack instructions (42_stack.md R160 to R163): a push of A or P, a pull to A or P. -/

namespace Sys2Proof.Proofs

open Sys2Proof.Machine Sys2Proof.Laws

/-! A push. -/

/-- An instruction whose meaning is a push of v: one write at the stack address, S down by one modulo 2^8, and an unmapped write
is dropped. -/
theorem completes_of_push {i : Instr} {s : State} {v : Byte} (hexec : exec i s = .next (s.push v)) :
    ∃ down : Byte, down.toNat = (s.sp.toNat + 255) % 256 ∧
      Completes i s { s.access (.write (stackAddr s.sp) v) with sp := down } [stackAddr s.sp] ∧
      (s.unmappedAt (stackAddr s.sp) = true → (s.access (.write (stackAddr s.sp) v)).regions = s.regions) :=
  ⟨s.sp - 1#8, sp_dec_toNat s.sp, ⟨hexec, bytesKept_write s (stackAddr s.sp) v⟩,
    access_unmapped (acc := .write (stackAddr s.sp) v)⟩

theorem exec_pha (s : State) : exec .pha s = .next (s.push s.a) := rfl

theorem exec_php (s : State) : exec .php s = .next (s.push s.p) := rfl

/-- Settles O44: PHA is a push of A. -/
theorem phaPushesTheAccumulator : Obligations.PhaPushesTheAccumulator := by
  unfold Obligations.PhaPushesTheAccumulator
  exact ⟨runsFrom_encode .pha, fun s => completes_of_push (exec_pha s)⟩

/-- Settles O45: PHP is a push of P itself. -/
theorem phpPushesTheStatusVerbatim : Obligations.PhpPushesTheStatusVerbatim := by
  unfold Obligations.PhpPushesTheStatusVerbatim
  exact ⟨runsFrom_encode .php, fun s => completes_of_push (exec_php s)⟩

/-! A pull. -/

/-- The NZ update bit by bit. -/
theorem nzUpdate_nzBits (p v : Byte) : NzBits v p (nzUpdate p v) :=
  fun k hk => nzUpdate_getLsbD p v k hk

/-- PLA is a pull, then a load of A with the NZ update of the pulled byte. -/
theorem exec_pla (s : State) : exec .pla s = .next (s.pull.2.loadA s.pull.1) := rfl

/-- PLP is a pull, then a write of the whole of P. -/
theorem exec_plp (s : State) : exec .plp s = .next (s.pull.2.setP s.pull.1) := rfl

/-- Settles O46: the pull is one read above S, and the pulled byte is loaded as A. -/
theorem plaPullsTheAccumulator : Obligations.PlaPullsTheAccumulator := by
  unfold Obligations.PlaPullsTheAccumulator
  refine ⟨runsFrom_encode .pla, fun s => ?_⟩
  have hnz := nzUpdate_nzBits s.p (s.peek (stackAddr (s.sp + 1#8)))
  exact ⟨s.sp + 1#8, _, sp_inc_toNat s.sp, hnz, ⟨exec_pla s, bytesKept_read s _ _⟩, peek_unmapped⟩

/-- Settles O47: the pull is one read above S, and the pulled byte is P as it stands. -/
theorem plpPullsTheStatusVerbatim : Obligations.PlpPullsTheStatusVerbatim := by
  unfold Obligations.PlpPullsTheStatusVerbatim
  refine ⟨runsFrom_encode .plp, fun s => ?_⟩
  exact ⟨s.sp + 1#8, sp_inc_toNat s.sp, ⟨exec_plp s, bytesKept_read s _ _⟩, peek_unmapped⟩

end Sys2Proof.Proofs
end

section
/-! What P steers, and control transfer (10_state.md R29, 43_control.md R170, R172, R173). -/

namespace Sys2Proof.Proofs

open Sys2Proof.Machine Sys2Proof.Laws

/-! The status byte. -/

/-- Settles O30: an instruction leaves P, updates it by a rule that reads P only to keep its other bits, or (PLP) pulls it; only
PHP puts P elsewhere. -/
theorem statusSteersNothingButPhp : Obligations.StatusSteersNothingButPhp := by
  unfold Obligations.StatusSteersNothingButPhp
  intro i s t q hphp h
  cases i
  case php => exact absurd rfl hphp
  case plp => cases h; exact ⟨s.pull.1, rfl⟩
  case staZp | staZpx | staAbs | staAbsx | staAbsy | stxZp | stxAbs | styZp | styZpx | styAbs | pha | jmpAbs | jmpInd |
      jsrAbs | rts | nop =>
    cases h; exact ⟨q, rfl⟩
  case clc | sec | cli | sei | clv | cld | sed => cases h; exact ⟨flagSet q _ _, rfl⟩
  case cmpImm | cmpZp | cmpZpx | cmpAbs | cmpAbsx | cmpAbsy | cpxImm | cpxZp | cpxAbs | cpyImm | cpyZp | cpyAbs =>
    cases h; exact ⟨compareFlags q _ _, rfl⟩
  -- The loads, transfers, increments, decrements and PLA: the NZ update of the register they write.
  all_goals cases h; exact ⟨nzUpdate q _, rfl⟩

/-! Jump. -/

theorem exec_jmpAbs (w : Word) (s : State) : exec (.jmpAbs w) s = .next { s with pc := w } := rfl

/-- Settles O49: the jump makes no access. -/
theorem jmpAbsoluteSetsPc : Obligations.JmpAbsoluteSetsPc := by
  unfold Obligations.JmpAbsoluteSetsPc
  exact fun w => ⟨runsFrom_encode (.jmpAbs w), fun s => ⟨exec_jmpAbs w s, bytesKept_refl s⟩⟩

/-! Call. -/

theorem hiByte_loByte_toNat (w : Word) : (hiByte w).toNat * 256 + (loByte w).toNat = w.toNat := by
  rw [← concat16_toNat, concat16_hi_lo]

theorem pc_dec_toNat (w : Word) : (w - 1#16).toNat = (w.toNat + 65535) % 65536 := by
  rw [BitVec.toNat_sub, Nat.add_comm]
  rfl

theorem sp_dec_dec_toNat (b : Byte) : (b - 1#8 - 1#8).toNat = (b.toNat + 254) % 256 := by
  rw [sp_dec_toNat, sp_dec_toNat]
  omega

/-- Two writes in a row. -/
theorem bytesKept_write_write (s : State) (a b : Word) (v w : Byte) :
    BytesKept s ((s.access (.write a v)).access (.write b w)) [a, b] :=
  bytesKept_trans (bytesKept_write s a v) (bytesKept_write _ b w) (access_deviceAt s _)

/-- Two writes in a row that nobody answers are dropped. -/
theorem write_write_unmapped {s : State} {a b : Word} {v w : Byte} (ha : s.unmappedAt a = true)
    (hb : s.unmappedAt b = true) : ((s.access (.write a v)).access (.write b w)).regions = s.regions := by
  have hb' : (s.access (.write a v)).unmappedAt b = true := (access_unmappedAt s _ b).trans hb
  calc _ = (s.access (.write a v)).regions := access_unmapped (acc := .write b w) hb'
    _ = s.regions := access_unmapped (acc := .write a v) ha

/-- JSR writes the two bytes of PC - 1 at the old S and just below it, and takes S down by two. -/
theorem exec_jsrAbs (w : Word) (s : State) :
    exec (.jsrAbs w) s = .next
      { (s.access (.write (stackAddr s.sp) (hiByte (s.pc - 1#16)))).access
          (.write (stackAddr (s.sp - 1#8)) (loByte (s.pc - 1#16))) with
        sp := s.sp - 1#8 - 1#8, pc := w } := rfl

/-- Settles O51: the bytes pushed are those of PC - 1 modulo 2^16, each at its own value of S. -/
theorem jsrPushesTheReturnAddress : Obligations.JsrPushesTheReturnAddress := by
  unfold Obligations.JsrPushesTheReturnAddress
  refine fun w => ⟨runsFrom_encode (.jsrAbs w), fun s => ?_⟩
  have hreturn := (hiByte_loByte_toNat (s.pc - 1#16)).trans (pc_dec_toNat s.pc)
  exact ⟨_, _, s.sp - 1#8, s.sp - 1#8 - 1#8, hreturn, sp_dec_toNat s.sp, sp_dec_dec_toNat s.sp,
    ⟨exec_jsrAbs w s, bytesKept_write_write s _ _ _ _⟩, write_write_unmapped⟩

/-! Return. -/

theorem sp_inc_inc_toNat (b : Byte) : (b + 1#8 + 1#8).toNat = (b.toNat + 2) % 256 := by
  rw [sp_inc_toNat, sp_inc_toNat]
  omega

theorem concat16_inc_toNat (hi lo : Byte) :
    (concat16 hi lo + 1#16).toNat = (hi.toNat * 256 + lo.toNat + 1) % 65536 := by
  rw [BitVec.toNat_add, concat16_toNat]
  rfl

/-- RTS reads the two bytes above S, low byte first, takes S up by two, and goes to their address plus one. -/
theorem exec_rts (s : State) {lo hi : Byte} (hlo : lo = s.peek (stackAddr (s.sp + 1#8)))
    (hhi : hi = (s.access (.read (stackAddr (s.sp + 1#8)) lo)).peek (stackAddr (s.sp + 1#8 + 1#8))) :
    exec .rts s = .next
      { (s.access (.read (stackAddr (s.sp + 1#8)) lo)).access (.read (stackAddr (s.sp + 1#8 + 1#8)) hi) with
        sp := s.sp + 1#8 + 1#8, pc := concat16 hi lo + 1#16 } := by
  subst hlo hhi
  rfl

/-- Settles O52: the second read follows the first, whose access a device may have noted; from open bus the address pulled is
0xFFFF, and one more is 0. -/
theorem rtsReturnsPastThePulledAddress : Obligations.RtsReturnsPastThePulledAddress := by
  unfold Obligations.RtsReturnsPastThePulledAddress
  refine ⟨runsFrom_encode .rts, fun s => ⟨s.sp + 1#8, s.sp + 1#8 + 1#8, _, _, _, sp_inc_toNat s.sp,
    sp_inc_inc_toNat s.sp, rfl, rfl, concat16_inc_toNat _ _, ⟨exec_rts s rfl rfl, bytesKept_read_read s _ _ _ _⟩, ?_⟩⟩
  intro hlo hhi
  rw [peek_unmapped hlo, peek_unmapped ((access_unmappedAt s _ _).trans hhi)]
  rfl

end Sys2Proof.Proofs
end

section
/-! Transfers, increments and decrements (44_transfer_incdec.md R180 to R187): a value of the register file put in a register. -/

namespace Sys2Proof.Proofs

open Sys2Proof.Machine Sys2Proof.Laws

/-- An instruction that puts v where `put` puts it, reaching no region, and then applies the NZ update of v, loads v with no
access. -/
theorem loadsValue_of_exec {i : Instr} {s : State} {v : Byte} {put : State → Byte → State}
    (hexec : exec i s = .next ((put s v).setP (nzUpdate s.p v))) (hregions : (put s v).regions = s.regions) :
    LoadsValue i s v put := by
  have hkept : BytesKept s ((put s v).setP (nzUpdate s.p v)) [] :=
    fun a _ _ => congrArg (peekFrom 0 · a) hregions
  exact ⟨nzUpdate s.p v, nzUpdate_nzBits s.p v, hexec, hkept⟩

section LoadedRegister

variable {i : Instr} {s : State} {v : Byte}

theorem loadsValue_of_loadA (hexec : exec i s = .next (s.loadA v)) : LoadsValue i s v State.setA :=
  loadsValue_of_exec hexec rfl

theorem loadsValue_of_loadX (hexec : exec i s = .next (s.loadX v)) : LoadsValue i s v State.setX :=
  loadsValue_of_exec hexec rfl

theorem loadsValue_of_loadY (hexec : exec i s = .next (s.loadY v)) : LoadsValue i s v State.setY :=
  loadsValue_of_exec hexec rfl

end LoadedRegister

/-! Transfers. -/

theorem exec_tax (s : State) : exec .tax s = .next (s.loadX s.a) := rfl

theorem exec_txa (s : State) : exec .txa s = .next (s.loadA s.x) := rfl

theorem exec_tay (s : State) : exec .tay s = .next (s.loadY s.a) := rfl

theorem exec_tya (s : State) : exec .tya s = .next (s.loadA s.y) := rfl

/-- Settles O54: a transfer loads its destination with the source's byte. -/
theorem transfersCopyAndUpdateNz : Obligations.TransfersCopyAndUpdateNz := by
  unfold Obligations.TransfersCopyAndUpdateNz
  refine ⟨⟨runsFrom_encode .tax, runsFrom_encode .txa, runsFrom_encode .tay, runsFrom_encode .tya⟩, fun s => ?_⟩
  exact ⟨loadsValue_of_loadX (exec_tax s), loadsValue_of_loadA (exec_txa s),
    loadsValue_of_loadY (exec_tay s), loadsValue_of_loadA (exec_tya s)⟩

/-! Increments and decrements. -/

theorem exec_inx (s : State) : exec .inx s = .next (s.loadX (s.x + 1#8)) := rfl

theorem exec_dex (s : State) : exec .dex s = .next (s.loadX (s.x - 1#8)) := rfl

theorem exec_iny (s : State) : exec .iny s = .next (s.loadY (s.y + 1#8)) := rfl

theorem exec_dey (s : State) : exec .dey s = .next (s.loadY (s.y - 1#8)) := rfl

/-- Settles O55: the register is loaded with its own byte up or down by one, which wraps modulo 2^8 (the law stated for S holds of
every byte). -/
theorem incrementsAndDecrementsWrap : Obligations.IncrementsAndDecrementsWrap := by
  unfold Obligations.IncrementsAndDecrementsWrap
  refine ⟨⟨runsFrom_encode .inx, runsFrom_encode .dex, runsFrom_encode .iny, runsFrom_encode .dey⟩, fun s => ?_⟩
  obtain ⟨pInx, hinx⟩ := loadsValue_of_loadX (exec_inx s)
  obtain ⟨pDex, hdex⟩ := loadsValue_of_loadX (exec_dex s)
  obtain ⟨pIny, hiny⟩ := loadsValue_of_loadY (exec_iny s)
  obtain ⟨pDey, hdey⟩ := loadsValue_of_loadY (exec_dey s)
  exact ⟨⟨_, pInx, sp_inc_toNat s.x, hinx⟩, ⟨_, pDex, sp_dec_toNat s.x, hdex⟩,
    ⟨_, pIny, sp_inc_toNat s.y, hiny⟩, ⟨_, pDey, sp_dec_toNat s.y, hdey⟩⟩

end Sys2Proof.Proofs
end

section
/-! The flag instructions (45_flags.md R190 to R197): one flag set or cleared, by the instruction's name. -/

namespace Sys2Proof.Proofs

open Sys2Proof.Machine Sys2Proof.Laws

/-- An instruction whose meaning sets f to b writes that bit of P, whatever its old value, and makes no access. -/
theorem completes_of_setFlag {i : Instr} {s : State} {f : Flag} {b : Bool} (hexec : exec i s = .next (s.setFlag f b)) :
    ∃ p', OneBit (flagBit f) b s.p p' ∧ Completes i s { s with p := p' } [] :=
  ⟨flagSet s.p f b, flagSet_oneBit s.p f b, hexec, fun a _ _ => setP_peek s (flagSet s.p f b) a⟩

theorem exec_clc (s : State) : exec .clc s = .next (s.setFlag .c false) := rfl

theorem exec_sec (s : State) : exec .sec s = .next (s.setFlag .c true) := rfl

theorem exec_cli (s : State) : exec .cli s = .next (s.setFlag .i false) := rfl

theorem exec_sei (s : State) : exec .sei s = .next (s.setFlag .i true) := rfl

theorem exec_clv (s : State) : exec .clv s = .next (s.setFlag .v false) := rfl

theorem exec_cld (s : State) : exec .cld s = .next (s.setFlag .d false) := rfl

theorem exec_sed (s : State) : exec .sed s = .next (s.setFlag .d true) := rfl

/-- Settles O56: each of the seven sets one flag to one value, and the flag's position is the bit. -/
theorem flagInstructionsWriteOneBit : Obligations.FlagInstructionsWriteOneBit := by
  unfold Obligations.FlagInstructionsWriteOneBit
  refine ⟨⟨runsFrom_encode .clc, runsFrom_encode .sec, runsFrom_encode .cli, runsFrom_encode .sei, runsFrom_encode .clv,
    runsFrom_encode .cld, runsFrom_encode .sed⟩, fun s => ?_⟩
  exact ⟨completes_of_setFlag (exec_clc s), completes_of_setFlag (exec_sec s), completes_of_setFlag (exec_cli s),
    completes_of_setFlag (exec_sei s), completes_of_setFlag (exec_clv s), completes_of_setFlag (exec_cld s),
    completes_of_setFlag (exec_sed s)⟩

end Sys2Proof.Proofs
end

section
/-! Encoding (30_encoding.md R81 to R83, R85, R98, R99): decode and encode are inverse, and the opcodes admitted are the table's. -/

namespace Sys2Proof.Proofs

open Sys2Proof.Machine Sys2Proof.Laws

/-! Every encoding decodes. -/

theorem decode_encode_append (i : Instr) (rest : List Byte) : decode (encode i ++ rest) = .ok (i, rest) := by
  obtain ⟨row, hrow, -, -, hbuild, -⟩ := tableRow i
  rw [encode, List.cons_append, decode, hrow]
  exact hbuild rest

/-- Settles O2: an instruction's opcode names the row that builds it from its operand bytes. -/
theorem encodedInstructionDecodesToItself : Obligations.EncodedInstructionDecodesToItself := by
  unfold Obligations.EncodedInstructionDecodesToItself
  exact fun i rest _ => decode_encode_append i rest

/-- Settles O1: the nine words are encodings. -/
theorem specWordsDecode : Obligations.SpecWordsDecode := by
  unfold Obligations.SpecWordsDecode
  exact ⟨decode_encode_append (.ldaImm 0x80#8) [], decode_encode_append (.staAbsy 0x20FE#16) [],
    decode_encode_append (.cmpAbsx 0x30FF#16) [], decode_encode_append .plp [],
    decode_encode_append (.jsrAbs 0x2040#16) [], decode_encode_append (.jmpInd 0x3000#16) [],
    decode_encode_append .dex [], decode_encode_append .clv [], decode_encode_append .nop []⟩

/-! Every decoding is of an encoding. -/

@[simp] theorem loByte_concat16 (hi lo : Byte) : loByte (concat16 hi lo) = lo := by
  apply BitVec.eq_of_toNat_eq
  rw [loByte_toNat, concat16_toNat]
  omega

@[simp] theorem hiByte_concat16 (hi lo : Byte) : hiByte (concat16 hi lo) = hi := by
  apply BitVec.eq_of_toNat_eq
  rw [hiByte_toNat, concat16_toNat]
  omega

theorem lookupRow_opcode {op : Byte} {row : Row} (h : lookupRow op = some row) : row.opcode = op :=
  eq_of_beq (List.find?_some (p := fun row : Row => row.opcode == op) h)

/-- The operand bytes a row takes are those of the instruction it builds from them. -/
theorem encode_of_fromBytes {row : Row} {op : Byte} {bytes rest : List Byte} {i : Instr} (hfaith : RowIsFaithful row)
    (h : row.build.fromBytes op bytes = .ok (i, rest)) : row.opcode :: bytes = encode i ++ rest := by
  obtain ⟨opcode, mode, basis, build⟩ := row
  match build, bytes, hfaith, h with
  | .implied j, _, hfaith, h => cases h; rw [hfaith.bytes]; rfl
  | .byte f, v :: _, hfaith, h => cases h; rw [(hfaith v).bytes]; rfl
  | .word f, lo :: hi :: _, hfaith, h =>
    cases h
    rw [(hfaith (concat16 hi lo)).bytes, loByte_concat16, hiByte_concat16]
    rfl

/-- Settles O3: the first byte is its row's opcode, and a faithful row builds nothing but what its bytes encode. -/
theorem decodedBytesAreTheEncoding : Obligations.DecodedBytesAreTheEncoding := by
  unfold Obligations.DecodedBytesAreTheEncoding
  intro bytes rest i h
  cases bytes with
  | nil => cases h
  | cons op operand =>
    rw [decode] at h
    cases hrow : lookupRow op with
    | none => rw [hrow] at h; cases h
    | some row =>
      rw [hrow] at h
      rw [← lookupRow_opcode hrow]
      exact encode_of_fromBytes (lookupRow_faithful hrow) h

/-! The opcodes the decoder admits. -/

theorem lookupRow_eq_none_iff (op : Byte) : lookupRow op = none ↔ op ∉ opcodeTable.map Row.opcode := by
  simp [lookupRow]

theorem lookupRow_admits_iff (op : Byte) :
    (∃ row, lookupRow op = some row ∧ row.opcode = op) ↔ op ∈ opcodeTable.map Row.opcode := by
  rw [← not_iff_not, ← lookupRow_eq_none_iff]
  cases hrow : lookupRow op with
  | none => simp
  | some row => simp [lookupRow_opcode hrow]

/-- Settles O4: the listed bytes are the opcodes of the table's rows in another order. -/
theorem decoderAdmitsExactlyTheTable : Obligations.DecoderAdmitsExactlyTheTable := by
  unfold Obligations.DecoderAdmitsExactlyTheTable
  intro op rest listed
  have hlisted : List.Perm listed (opcodeTable.map Row.opcode) := by decide
  rw [hlisted.mem_iff]
  refine ⟨(lookupRow_admits_iff op).symm, fun hop => ?_⟩
  rw [decode, (lookupRow_eq_none_iff op).2 hop]

end Sys2Proof.Proofs
end

section
/-! The step (30_encoding.md R80, 46_nop_unknown.md R201): when it completes, what an unknown opcode does, the halt idiom, and what
every step keeps. -/

namespace Sys2Proof.Proofs

open Sys2Proof.Machine Sys2Proof.Laws

/-! What every step keeps: both follow from the step being its accesses, delivered in order. -/

/-- Settles O16: each access the step delivers keeps the canonical form. -/
theorem stepKeepsMemoryCanonical : Obligations.StepKeepsMemoryCanonical := by
  unfold Obligations.StepKeepsMemoryCanonical
  intro s t hwf hstep
  obtain ⟨_, -, -, hregions, -⟩ := step_accesses hstep
  rw [State.memWf, hregions]
  exact foldl_deliver_wf t.bus hwf

/-- Settles O17: an access changes what a region holds, never its range or kind. -/
theorem stepKeepsConfiguration : Obligations.StepKeepsConfiguration := by
  unfold Obligations.StepKeepsConfiguration
  intro s t hstep
  obtain ⟨_, -, -, hregions, hcfg⟩ := step_accesses hstep
  refine ⟨?_, hcfg⟩
  rw [State.decls, hregions]
  exact foldl_deliver_decls t.bus s.regions

/-! When a step completes. -/

/-- After the opcode fetch nothing keeps a step from completing: CORE raises nothing. -/
theorem runOpcode_completes (s : State) (op : Byte) (addr : Word) : ∃ t, s.runOpcode op addr = .next t := by
  unfold State.runOpcode
  split
  · exact ⟨_, rfl⟩
  · unfold State.runRow
    split
    · exact ⟨_, rfl⟩
    · obtain ⟨t, _, hexec, -⟩ := exec_reaches _ _
      exact ⟨t, hexec⟩

theorem step_of_fault {s : State} {op : Byte} {addr : Word} (h : s.fault = some (op, addr)) :
    step s = .fault (.unknownOpcode op addr) := by
  rw [step, State.runStep, h]

theorem step_of_refused {s : State} (hfault : s.fault = none) (h : s.refused = true) :
    step s = .refused .refusalMark := by
  rw [step, State.runStep, hfault]
  exact if_pos h

/-- Settles O24: an unmarked machine's step is its opcode run, which completes, and a completed step found no mark. -/
theorem stepCompletesExactlyWhenUnmarked : Obligations.StepCompletesExactlyWhenUnmarked := by
  unfold Obligations.StepCompletesExactlyWhenUnmarked
  refine fun s => ⟨⟨?_, fun hrun => ?_⟩, fun _ _ => step_of_fault, step_of_refused⟩
  · rintro ⟨t, hstep⟩
    obtain ⟨hfault, hrefused, -⟩ := step_cases hstep
    exact (running_iff s).2 ⟨hfault, hrefused⟩
  · rw [step_running hrun]
    exact runOpcode_completes _ _ _

/-! What a running machine's step does. -/

/-- Settles O20: it is how an instruction's encoding runs. -/
theorem stepRunsTheDecodedInstruction : Obligations.StepRunsTheDecodedInstruction := by
  unfold Obligations.StepRunsTheDecodedInstruction
  exact fun i s _ => (runsFrom_encode i).2 s

/-- An unmarked machine's step at an unknown opcode is the opcode fetch and the policy. -/
theorem step_unknown {s : State} (hrun : s.running = true) (hrow : lookupRow (s.peek s.pc) = none) :
    step s = .next (s.clearBus.fetch8.2.unknownOpcode (s.peek s.pc) s.pc) := by
  rw [step_running hrun, State.runOpcode, hrow]

/-- Settles O22: the policy of the state after the fetch is that of the state before. -/
theorem unknownOpcodeFollowsPolicy : Obligations.UnknownOpcodeFollowsPolicy := by
  unfold Obligations.UnknownOpcodeFollowsPolicy
  intro s hrun hrow
  have hcfg : s.clearBus.fetch8.2.cfg = s.cfg := rfl
  rw [step_unknown hrun hrow, State.unknownOpcode, hcfg]
  refine ⟨fun h => ?_, fun h => ?_, fun h => ?_⟩ <;> rw [h] <;> rfl

/-! The halt idiom. -/

theorem atHalt_iff (s : State) :
    s.atHalt = true ↔ (∀ k < 3, s.ramAt (s.pc + BitVec.ofNat 16 k) = true) ∧
      s.peek s.pc = 0x4C#8 ∧ s.peek (s.pc + 1#16) = loByte s.pc ∧ s.peek (s.pc + 2#16) = hiByte s.pc := by
  simp [State.atHalt, Nat.forall_lt_succ_right, -Order.lt_two_iff, and_assoc]

/-- Settles O26: the idiom's bytes are the encoding of JMP abs to PC, whose fetch from RAM is three reads and whose meaning takes PC
back. -/
theorem haltIdiomRepeatsForEver : Obligations.HaltIdiomRepeatsForEver := by
  unfold Obligations.HaltIdiomRepeatsForEver
  intro s hhalt hrun
  obtain ⟨hram, hop, hlo, hhi⟩ := (atHalt_iff s).1 hhalt
  have hdecode : decode [0x4C#8, loByte s.pc, hiByte s.pc] = .ok (.jmpAbs s.pc, []) :=
    decode_encode_append (.jmpAbs s.pc) []
  have hstep := stepFromPlainMemory s (.jmpAbs s.pc) _ _ _ [] hrun nofun
    (fun k hk => ramAt_not_deviceAt (hram k hk)) hop.symm hlo.symm hhi.symm hdecode
  exact ⟨_, hstep.trans (exec_jmpAbs s.pc _), hhalt, rfl⟩

end Sys2Proof.Proofs
end

section
/-! The first match and devices (20_memory.md R52, R58, R67): the range test, a device's record, a described device's store. -/

namespace Sys2Proof.Proofs

open Sys2Proof.Machine Sys2Proof.Laws

/-! The range test. -/

/-- Settles O13: the test is the two inequalities, and each later clause contradicts one of them. -/
theorem rangeTestDoesNotWrap : Obligations.RangeTestDoesNotWrap := by
  unfold Obligations.RangeTestDoesNotWrap
  intro r a
  have hrange := inRange_iff r a
  refine ⟨hrange, fun hsize => ?_, fun hbelow => ?_⟩
  all_goals
    rw [← Bool.not_eq_true, hrange]
    omega

/-! A device's record. -/

section DeviceRegion

variable {r : Region} {b : DeviceBehaviour} {log : List DeviceEvent}

theorem byteAt_of_device (k : Nat) (a : Word) (h : r.body = .device b log) : r.byteAt k a = b.answer k r.start log a := by
  simp [Region.byteAt, h]

theorem accept_of_device (acc : BusAccess) (h : r.body = .device b log) :
    r.accept acc = { r with body := .device b (log ++ [.access acc]) } := by
  simp [Region.accept, h]

theorem change_of_device (h : r.body = .device b log) :
    r.change = { r with body := .device b (log ++ [.change]) } := by
  simp [Region.change, h]

end DeviceRegion

/-- Settles O14: the lookup finds the device, which answers by its behaviour and takes the access into its record. -/
theorem deviceRecordsEveryAccess : Obligations.DeviceRecordsEveryAccess := by
  unfold Obligations.DeviceRecordsEveryAccess
  intro s pre post r b log a v hsplit hbody hpre hr byte
  have hpeek : s.peek a = byte := by
    rw [State.peek, hsplit, peekFrom_first_match 0 hpre hr, byteAt_of_device _ a hbody, Nat.zero_add]
  have hdeliver (acc : BusAccess) (hacc : accessAddr acc = a) :
      deliver s.regions acc = pre ++ { r with body := .device b (log ++ [.access acc]) } :: post := by
    subst hacc
    rw [hsplit, deliver_first_match hpre hr, accept_of_device acc hbody]
  refine ⟨?_, ?_, fun hdraw => by subst hdraw; rfl⟩
  · rw [State.memRead, hpeek, State.access, hdeliver (.read a byte) rfl]
  · rw [memWrite_eq, State.access, hdeliver (.write a v) rfl]

/-! A described device. -/

/-- Settles O59: the store moves on by the handler of each event, whose context is the access's or, for a change, that of the
region's own start; `modify` at a region's number reaches that region. -/
theorem describedDeviceFollowsItsProgram : Obligations.DescribedDeviceFollowsItsProgram := by
  unfold Obligations.DescribedDeviceFollowsItsProgram
  constructor
  · intro d k start log a v free context store
    refine ⟨BitVec.toNat_ofNat _ _, fun _ => rfl, contents_append d k start log _, contents_append d k start log _, ?_,
      contents_wf d k start log⟩
    rw [contents_append, DeviceProgram.afterEvent, DeviceProgram.context, eventAddr, Nat.sub_self]
    rfl
  · intro s pre post r b log hsplit hbody
    rw [State.deviceChange, hsplit]
    simp [List.modify_eq_set_getElem?, change_of_device hbody]

end Sys2Proof.Proofs
end

section
/-! The host's ports (20_memory.md R56, 10_state.md R37): HOSTBUS writes and reads, and the REG port. -/

namespace Sys2Proof.Proofs

open Sys2Proof.Machine Sys2Proof.Laws

/-! The accesses of a host write. -/

/-- The writes a host write delivers: byte i at (a + i) modulo 2^16. -/
def hostWrites (a : Word) (bytes : List Byte) : List BusAccess :=
  bytes.mapIdx fun i v => .write (a + BitVec.ofNat 16 i) v

theorem word_add_succ (a : Word) (n : Nat) : a + BitVec.ofNat 16 (n + 1) = a + 1#16 + BitVec.ofNat 16 n := by
  rw [Nat.add_comm, BitVec.ofNat_add, BitVec.add_assoc]

theorem hostWrites_cons (a : Word) (b : Byte) (rest : List Byte) :
    hostWrites a (b :: rest) = .write a b :: hostWrites (a + 1#16) rest := by
  have hlater : (fun i v => BusAccess.write (a + BitVec.ofNat 16 (i + 1)) v) =
      fun i v => .write (a + 1#16 + BitVec.ofNat 16 i) v := by
    funext i v
    rw [word_add_succ a i]
  rw [hostWrites, List.mapIdx_cons, hlater, BitVec.add_zero]
  rfl

theorem mem_hostWrites {a : Word} {bytes : List Byte} {acc : BusAccess} (h : acc ∈ hostWrites a bytes) :
    ∃ n < bytes.length, accessAddr acc = a + BitVec.ofNat 16 n := by
  obtain ⟨n, hn, rfl⟩ := List.mem_mapIdx.1 h
  exact ⟨n, hn, rfl⟩

theorem hostWrite_regions (s : State) (a : Word) (bytes : List Byte) :
    (s.hostWrite a bytes).regions = (hostWrites a bytes).foldl deliver s.regions := by
  induction bytes generalizing s a with
  | nil => rfl
  | cons b rest ih => rw [State.hostWrite, ih, hostWrites_cons]; rfl

/-- A byte of RAM or open bus at none of the addresses written is kept. -/
theorem hostWrite_peek_other {s : State} {a b : Word} {bytes : List Byte} (hplain : s.deviceAt b = false)
    (hother : ∀ n < bytes.length, b ≠ a + BitVec.ofNat 16 n) : (s.hostWrite a bytes).peek b = s.peek b := by
  rw [State.peek, hostWrite_regions]
  refine foldl_deliver_peek _ 0 hplain fun v hmem => ?_
  obtain ⟨n, hn, haddr⟩ := mem_hostWrites hmem
  exact hother n hn haddr

theorem hostWriteByte_ramAt (s : State) (a b : Word) (v : Byte) : (s.hostWriteByte a v).ramAt b = s.ramAt b :=
  access_ramAt s (.write a v) b

/-- Fewer than 2^16 bytes from the next address on do not come round to an address. -/
theorem word_ne_later (a : Word) {n : Nat} (hn : n + 1 < 0x10000) : a ≠ a + 1#16 + BitVec.ofNat 16 n := by
  rw [← word_add_succ]
  intro h
  have := congrArg BitVec.toNat h
  rw [BitVec.toNat_add, BitVec.toNat_ofNat] at this
  omega

/-- Where RAM answers, byte n is read back at (a + n) modulo 2^16: no later byte reaches that address. -/
theorem hostWrite_peek_same {s : State} {a : Word} {bytes : List Byte} (hlen : bytes.length ≤ 0x10000) {n : Nat} {v : Byte}
    (hv : bytes[n]? = some v) (hram : s.ramAt (a + BitVec.ofNat 16 n) = true) :
    (s.hostWrite a bytes).peek (a + BitVec.ofNat 16 n) = v := by
  induction bytes generalizing s a n with
  | nil => cases hv
  | cons b rest ih =>
    rw [List.length_cons] at hlen
    rw [State.hostWrite]
    cases n with
    | zero =>
      cases hv
      rw [BitVec.add_zero] at hram ⊢
      have hafter := (hostWriteByte_ramAt s a a v).trans hram
      rw [hostWrite_peek_other (ramAt_not_deviceAt hafter) fun n hn => word_ne_later a (by omega)]
      exact peek_write_same v hram
    | succ n =>
      rw [word_add_succ a n] at hram ⊢
      exact ih (by omega) hv ((hostWriteByte_ramAt s a _ b).trans hram)

/-! Regions an access does not reach. -/

theorem any_inRange_deliver (rs : List Region) (acc : BusAccess) (a : Word) :
    (deliver rs acc).any (·.inRange a) = rs.any (·.inRange a) := by
  induction rs with
  | nil => rfl
  | cons r rest ih =>
    rw [deliver]
    split
    · simp [accept_inRange]
    · simp [ih]

/-- A region that does not hold the address, or stands behind one that does, is passed over. -/
theorem deliver_passes {pre : List Region} {r : Region} (post : List Region) {acc : BusAccess}
    (h : r.inRange (accessAddr acc) = true → pre.any (·.inRange (accessAddr acc)) = true) :
    ∃ post', deliver (pre ++ r :: post) acc = deliver pre acc ++ r :: post' := by
  induction pre with
  | nil =>
    have hmiss : ¬ r.inRange (accessAddr acc) = true := fun hr => by simpa using h hr
    exact ⟨deliver post acc, by simp [deliver, hmiss]⟩
  | cons q pre ih =>
    by_cases hq : q.inRange (accessAddr acc) = true
    · exact ⟨post, by simp [deliver, hq]⟩
    · obtain ⟨post', hpost⟩ := ih fun hr => by simpa [hq] using h hr
      exact ⟨post', by simp [deliver, hq, hpost]⟩

theorem foldl_deliver_passes {pre : List Region} {r : Region} (post : List Region) {accs : List BusAccess}
    (h : ∀ acc ∈ accs, r.inRange (accessAddr acc) = true → pre.any (·.inRange (accessAddr acc)) = true) :
    ∃ post', accs.foldl deliver (pre ++ r :: post) = accs.foldl deliver pre ++ r :: post' := by
  induction accs generalizing pre post with
  | nil => exact ⟨post, rfl⟩
  | cons acc rest ih =>
    obtain ⟨post', hpost⟩ := deliver_passes post (h acc List.mem_cons_self)
    rw [List.foldl_cons, hpost]
    refine ih post' fun acc' hacc' => ?_
    rw [any_inRange_deliver]
    exact h acc' (List.mem_cons_of_mem acc hacc')

theorem foldl_deliver_length (accs : List BusAccess) (rs : List Region) :
    (accs.foldl deliver rs).length = rs.length := by
  simpa using congrArg List.length (foldl_deliver_decls accs rs)

/-- Settles O15: a host write is its writes delivered in order, so what each access does and leaves alone says the rest. -/
theorem hostWritePlacesEachByte : Obligations.HostWritePlacesEachByte := by
  unfold Obligations.HostWritePlacesEachByte
  refine ⟨fun s a bytes => ⟨?_, ?_, ?_, ?_⟩, fun _ _ => rfl⟩
  · rw [hostWrite_eq, hostWrite_regions]
    rfl
  · exact fun hlen n v => hostWrite_peek_same hlen
  · exact fun b => hostWrite_peek_other
  · intro pre r post hsplit hpassed
    obtain ⟨post', hpost⟩ := foldl_deliver_passes (pre := pre) (r := r) post (accs := hostWrites a bytes)
      fun acc hacc hr => by
        obtain ⟨n, hn, haddr⟩ := mem_hostWrites hacc
        rw [haddr] at hr ⊢
        exact List.any_eq_true.2 (hpassed n hn hr)
    rw [hostWrite_regions, hsplit, hpost, ← foldl_deliver_length (hostWrites a bytes) pre]
    simp

/-! The REG port. -/

theorem flagBit_lt (f : Flag) : flagBit f < 8 := by cases f <;> decide

/-- A flag reads as it was set. -/
theorem flagGet_flagSet (p : Byte) (f : Flag) (b : Bool) : flagGet (flagSet p f b) f = b :=
  (flagSet_oneBit p f b (flagBit f) (flagBit_lt f)).trans (if_pos rfl)

/-- Settles O58: a register's write is its record update, a flag's is `flagSet`. -/
theorem registerPortReadsBackWhatItWrites : Obligations.RegisterPortReadsBackWhatItWrites := by
  unfold Obligations.RegisterPortReadsBackWhatItWrites
  intro s v w f b
  exact ⟨rfl, rfl, rfl, rfl, rfl, rfl, ⟨flagSet s.p f b, flagSet_oneBit s.p f b, rfl⟩,
    congrArg RegValue.bit (flagGet_flagSet s.p f b), rfl, rfl, rfl, rfl, rfl, rfl⟩

end Sys2Proof.Proofs
end

section
/-! Construction, reset() and boot (70_reset_and_hazards.md R240 to R244). -/

namespace Sys2Proof.Proofs

open Sys2Proof.Machine Sys2Proof.Laws

/-! reset(). -/

/-- Settles O9: a constructed Address Space has nothing written. -/
theorem resetMemoryIsCanonical : Obligations.ResetMemoryIsCanonical := by
  unfold Obligations.ResetMemoryIsCanonical
  exact reset_regions_wf

/-- The byte at 0xFFFC, and the byte the read of 0xFFFD gives after the read of that one. -/
def vectorLo (s : State) : Byte := s.peek 0xFFFC#16

def vectorHi (s : State) : Byte := (s.access (.read 0xFFFC#16 (vectorLo s))).peek 0xFFFD#16

theorem resetPort_eq (s : State) :
    s.resetPort = { s with
      pc := concat16 (vectorHi s) (vectorLo s)
      regions := deliver (deliver s.regions (.read 0xFFFC#16 (vectorLo s))) (.read 0xFFFD#16 (vectorHi s))
      bus := [.read 0xFFFC#16 (vectorLo s), .read 0xFFFD#16 (vectorHi s)] } := rfl

/-- Settles O7: two open-bus bytes make 0xFFFF. -/
theorem resetLoadsPcAndNothingElse : Obligations.ResetLoadsPcAndNothingElse := by
  unfold Obligations.ResetLoadsPcAndNothingElse
  intro s
  refine ⟨vectorLo s, vectorHi s, _, rfl, rfl, concat16_toNat _ _, resetPort_eq s, fun hlo hhi => ?_⟩
  have hlo' : vectorLo s = 0xFF#8 := peek_unmapped hlo
  have hhi' : vectorHi s = 0xFF#8 := peek_unmapped ((access_unmappedAt s _ _).trans hhi)
  rw [resetPort_eq, hlo', hhi']
  rfl

theorem resetPort_bytesKept (s : State) : BytesKept s s.resetPort [] :=
  bytesKept_read_read s 0xFFFC#16 0xFFFD#16 (vectorLo s) (vectorHi s)

theorem resetPort_decls (s : State) : s.resetPort.decls = s.decls := by
  rw [State.decls, resetPort_eq, State.decls]
  exact (deliver_decls _ _).trans (deliver_decls _ _)

/-! Construction. -/

/-- The first region that holds an address answers for it, under its own number. -/
theorem peek_of_regionAt {s : State} {a : Word} {r : Region} (h : regionAt s.regions a = some r) :
    ∃ k, s.peek a = r.byteAt k a := by
  obtain ⟨hr, pre, post, hsplit, hpre⟩ := List.find?_eq_some_iff_append.1 h
  refine ⟨0 + pre.length, ?_⟩
  rw [State.peek, hsplit]
  exact peekFrom_first_match 0 (fun q hq => by simpa using hpre q hq) hr

theorem mem_construct_regions {c : Config} {r : Region} (h : r ∈ (State.construct c).regions) :
    constructRegion r.decl = r := by
  obtain ⟨d, -, rfl⟩ := List.mem_map.1 h
  rw [construct_decl]

/-- A constructed RAM region with a fixed image reads as its image. -/
theorem construct_peek_image {c : Config} {a : Word} {r : Region} {fill : Byte} {image : List Host.Cell}
    (hat : regionAt (State.construct c).regions a = some r) (hkind : r.decl.kind = .ram (.fixed fill image)) :
    (State.construct c).peek a = (Memory.get? image (a.toNat - r.start.toNat)).getD fill := by
  obtain ⟨k, hpeek⟩ := peek_of_regionAt hat
  have hdecl : r.decl = { start := r.start, size := r.size, kind := .ram (.fixed fill image) } := by
    rw [← hkind]
    rfl
  have hbyte := ramRegionIsAByteArray.2 k r.start r.size fill image a
  rwa [← hdecl, mem_construct_regions (List.mem_of_find?_eq_some hat), ← hpeek] at hbyte

/-- A constructed device has seen nothing. -/
theorem construct_device_body {c : Config} {r : Region} {b : DeviceBehaviour} (hr : r ∈ (State.construct c).regions)
    (hkind : r.decl.kind = .device b) : r.body = .device b [] := by
  rw [← mem_construct_regions hr, constructRegion, hkind]

/-- Settles O6: registers and marks are literals; reset() adds two reads, which leave ranges, kinds and every byte no device
answers. -/
theorem stateAtConstructionAndAfterReset : Obligations.StateAtConstructionAndAfterReset := by
  unfold Obligations.StateAtConstructionAndAfterReset
  intro c s t
  have hdecls : s.decls = c.regions := construct_decls c.regions
  have hkept (a : Word) : s.deviceAt a = false → t.peek a = s.peek a := resetPort_bytesKept s a List.not_mem_nil
  exact ⟨⟨rfl, rfl, rfl, rfl, rfl, rfl⟩, ⟨rfl, rfl, rfl, rfl, rfl⟩, rfl, ⟨hdecls, (resetPort_decls s).trans hdecls⟩,
    hkept, fun _ _ _ _ => construct_peek_image, fun _ hr _ => construct_device_body hr, rfl, ⟨rfl, rfl⟩, ⟨rfl, rfl⟩⟩

/-! Boot. -/

/-- RAM answers at every address. -/
def AllRam (s : State) : Prop := ∀ a : Word, s.ramAt a = true

theorem construct_allRam (init : RamInit) (params : Params) :
    AllRam (State.construct { regions := [{ start := 0#16, size := 0x10000, kind := .ram init }], params := params }) := by
  intro a
  have ha := a.isLt
  simp [State.ramAt, State.construct, constructRegion, regionAt_cons, inRange_iff, Region.isRam, ha]

theorem hostWrite_allRam {s : State} (h : AllRam s) (a : Word) (bytes : List Byte) : AllRam (s.hostWrite a bytes) := by
  induction bytes generalizing s a with
  | nil => exact h
  | cons b rest ih => exact ih (fun x => (hostWriteByte_ramAt s a x b).trans (h x)) (a + 1#16)

theorem hostLoad_allRam {s : State} (h : AllRam s) (image : List (Word × List Byte)) : AllRam (s.hostLoad image) := by
  induction image generalizing s with
  | nil => exact h
  | cons seg rest ih => exact ih (hostWrite_allRam h seg.1 seg.2)

theorem hostLoad_append (s : State) (first second : List (Word × List Byte)) :
    s.hostLoad (first ++ second) = (s.hostLoad first).hostLoad second := by
  induction first generalizing s with
  | nil => rfl
  | cons seg rest ih => exact ih (s.hostWrite seg.1 seg.2)

/-- A register write reaches no region. -/
theorem regWrite_regions (s : State) (w : RegWrite) : (s.regWrite w).regions = s.regions := by
  cases w <;> rfl

theorem hostRegs_regions (s : State) (regs : List RegWrite) : (s.hostRegs regs).regions = s.regions := by
  induction regs generalizing s with
  | nil => rfl
  | cons w rest ih => exact (ih (s.regWrite w)).trans (regWrite_regions s w)

/-- Over RAM, reset() puts in PC the two bytes the host wrote at the vector. -/
theorem resetPort_pc_of_vector {s u : State} {lo hi : Byte} (hram : AllRam s)
    (hu : u.regions = (s.hostWrite 0xFFFC#16 [lo, hi]).regions) : u.resetPort.pc = concat16 hi lo := by
  have hpeek : u.peek = (s.hostWrite 0xFFFC#16 [lo, hi]).peek := congrArg (peekFrom 0) hu
  have hplain : u.deviceAt 0xFFFD#16 = false := by
    rw [State.deviceAt, hu]
    exact ramAt_not_deviceAt (hostWrite_allRam hram _ _ _)
  have hlo : vectorLo u = lo := by
    rw [vectorLo, hpeek]
    exact hostWrite_peek_same (n := 0) (by simp) rfl (hram _)
  have hhi : vectorHi u = hi := by
    rw [vectorHi, peek_read_other _ _ hplain, hpeek]
    exact hostWrite_peek_same (n := 1) (by simp) rfl (hram _)
  rw [resetPort_eq, hlo, hhi]

/-- Settles O8: the vector is the last thing loaded, and register writes leave it there. -/
theorem bootStartsAtTheWrittenVector : Obligations.BootStartsAtTheWrittenVector := by
  unfold Obligations.BootStartsAtTheWrittenVector
  intro init params image regs lo hi
  have hram := hostLoad_allRam (construct_allRam init params) image
  rw [State.boot, hostLoad_append, ← concat16_toNat]
  exact congrArg BitVec.toNat (resetPort_pc_of_vector hram (hostRegs_regions _ regs))

end Sys2Proof.Proofs
end

section
/-! What an instruction writes in P and what registers it reads (10_state.md R21 to R24, R28, R29). -/

namespace Sys2Proof.Proofs

open Sys2Proof.Machine Sys2Proof.Laws

/-! The bits of P an instruction writes. -/

/-- The bits of P the instructions of a mnemonic write; `exec_keeps_statusBits` says that the others stay. -/
def writtenStatusBits : Mnemonic → List Nat
  | .lda | .ldx | .ldy | .tax | .txa | .tay | .tya | .inx | .dex | .iny | .dey | .pla => [1, 7]
  | .cmp | .cpx | .cpy => [0, 1, 7]
  | .clc | .sec => [flagBit .c]
  | .cli | .sei => [flagBit .i]
  | .cld | .sed => [flagBit .d]
  | .clv => [flagBit .v]
  | .plp => [0, 1, 2, 3, 4, 5, 6, 7]
  | .sta | .stx | .sty | .pha | .php | .jmp | .jsr | .rts | .nop => []

section Bits

variable {p : Byte} {k : Nat}

theorem flagSet_keeps_bit {f : Flag} {b : Bool} (hk : k < 8) (h : k ∉ [flagBit f]) :
    (flagSet p f b).getLsbD k = p.getLsbD k := by
  rw [flagSet_getLsbD p f b k hk, if_neg (List.mem_singleton.not.1 h)]

theorem nzUpdate_keeps_bit {v : Byte} (hk : k < 8) (h : k ∉ [1, 7]) : (nzUpdate p v).getLsbD k = p.getLsbD k := by
  simp only [List.mem_cons, List.not_mem_nil, or_false, not_or] at h
  rw [nzUpdate_getLsbD p v k hk, if_neg h.1, if_neg h.2]

theorem compareFlags_keeps_bit {r m : Byte} (hk : k < 8) (h : k ∉ [0, 1, 7]) :
    (compareFlags p r m).getLsbD k = p.getLsbD k := by
  obtain ⟨h0, hnz⟩ := not_or.1 (List.mem_cons.not.1 h)
  rw [compareFlags, nzUpdate_keeps_bit hk hnz, flagSet_keeps_bit (f := .c) hk (List.mem_singleton.not.2 h0)]

end Bits

theorem exec_keeps_statusBits {i : Instr} {s t : State} {k : Nat} (h : exec i s = .next t) (hk : k < 8)
    (hbit : k ∉ writtenStatusBits i.mnemonic) : t.p.getLsbD k = s.p.getLsbD k := by
  cases i
  case plp =>
    have hall : k ∉ List.range 8 := hbit
    exact absurd (List.mem_range.2 hk) hall
  case staZp | staZpx | staAbs | staAbsx | staAbsy | stxZp | stxAbs | styZp | styZpx | styAbs | pha | php | jmpAbs | jmpInd |
      jsrAbs | rts | nop =>
    cases h; rfl
  case clc | sec | cli | sei | clv | cld | sed => cases h; exact flagSet_keeps_bit hk hbit
  case cmpImm | cmpZp | cmpZpx | cmpAbs | cmpAbsx | cmpAbsy | cpxImm | cpxZp | cpxAbs | cpyImm | cpyZp | cpyAbs =>
    cases h; exact compareFlags_keeps_bit hk hbit
  -- The loads, transfers, increments, decrements and PLA: the NZ update of the register they write.
  all_goals cases h; exact nzUpdate_keeps_bit hk hbit

theorem exec_clears_v {i : Instr} {s t : State} (h : exec i s = .next t) (hi : i.mnemonic = .clv) :
    t.p.getLsbD 6 = false := by
  cases i
  case clv => cases h; exact flagGet_flagSet s.p .v false
  all_goals cases hi

/-- Settles O29: the writers listed for a bit are the mnemonics whose written bits hold it. -/
theorem eachFlagHasItsWriters : Obligations.EachFlagHasItsWriters := by
  unfold Obligations.EachFlagHasItsWriters
  intro i s t h
  have hkeeps (k : Nat) (hk : k < 8) := exec_keeps_statusBits h hk
  refine ⟨fun hi => hkeeps 0 (by decide) ?_, fun hi => ⟨hkeeps 1 (by decide) ?_, hkeeps 7 (by decide) ?_⟩,
    fun hi => hkeeps 2 (by decide) ?_, fun hi => hkeeps 3 (by decide) ?_,
    fun hi => ⟨hkeeps 4 (by decide) ?_, hkeeps 5 (by decide) ?_⟩, fun hi => hkeeps 6 (by decide) ?_, exec_clears_v h⟩
  all_goals
    revert hi
    generalize i.mnemonic = m
    cases m <;> decide

/-! The NZ update. -/

/-- Z and N of p are those of v. -/
def NzOf (v p : Byte) : Prop := p.getLsbD 1 = (v == 0#8) ∧ p.getLsbD 7 = v.getLsbD 7

theorem nzUpdate_nzOf (p v : Byte) : NzOf v (nzUpdate p v) :=
  ⟨nzUpdate_nzBits p v 1 (by decide), nzUpdate_nzBits p v 7 (by decide)⟩

/-- The compare rule ends in the NZ update of the register compared. -/
theorem compareFlags_nzOf (p r m : Byte) : NzOf r (compareFlags p r m) := nzUpdate_nzOf _ r

section NzOfRegister

variable {i : Instr} {s t : State}

theorem exec_nzOf_a (h : exec i s = .next t) (hi : i.mnemonic ∈ [.lda, .txa, .tya, .pla, .cmp]) : NzOf t.a t.p := by
  cases i
  case ldaImm | ldaZp | ldaZpx | ldaAbs | ldaAbsx | ldaAbsy | txa | tya | pla => cases h; exact nzUpdate_nzOf _ _
  case cmpImm | cmpZp | cmpZpx | cmpAbs | cmpAbsx | cmpAbsy => cases h; exact compareFlags_nzOf _ _ _
  all_goals simp [Instr.mnemonic] at hi

theorem exec_nzOf_x (h : exec i s = .next t) (hi : i.mnemonic ∈ [.ldx, .tax, .inx, .dex, .cpx]) : NzOf t.x t.p := by
  cases i
  case ldxImm | ldxZp | ldxAbs | ldxAbsy | tax | inx | dex => cases h; exact nzUpdate_nzOf _ _
  case cpxImm | cpxZp | cpxAbs => cases h; exact compareFlags_nzOf _ _ _
  all_goals simp [Instr.mnemonic] at hi

theorem exec_nzOf_y (h : exec i s = .next t) (hi : i.mnemonic ∈ [.ldy, .tay, .iny, .dey, .cpy]) : NzOf t.y t.p := by
  cases i
  case ldyImm | ldyZp | ldyZpx | ldyAbs | ldyAbsx | tay | iny | dey => cases h; exact nzUpdate_nzOf _ _
  case cpyImm | cpyZp | cpyAbs => cases h; exact compareFlags_nzOf _ _ _
  all_goals simp [Instr.mnemonic] at hi

theorem exec_pulls_p (h : exec i s = .next t) (hi : i.mnemonic = .plp) : t.p = s.peek (stackAddr (s.sp + 1#8)) := by
  cases i
  case plp => cases h; rfl
  all_goals cases hi

end NzOfRegister

/-- Settles O28: the register each list names is the one its instructions update or compare, and the mnemonics of the fourth list
write neither bit 1 nor bit 7. -/
theorem nzUpdateIsAppliedWhereListed : Obligations.NzUpdateIsAppliedWhereListed := by
  unfold Obligations.NzUpdateIsAppliedWhereListed
  refine ⟨nzUpdate_nzBits, fun i s t h => ⟨exec_nzOf_a h, exec_nzOf_x h, exec_nzOf_y h, fun hi => ?_, exec_pulls_p h⟩⟩
  refine ⟨exec_keeps_statusBits h (by decide) ?_, exec_keeps_statusBits h (by decide) ?_⟩
  all_goals
    revert hi
    generalize i.mnemonic = m
    cases m <;> decide

/-! The readers of a register: the forms that read it are set aside by name, and every other form's meaning is the same but for
that register. -/

section Readers

variable {i : Instr} {s t : State} (v : Byte)

theorem exec_ignores_a (h : exec i s = .next t) (hi : i.mnemonic ∉ [.sta, .cmp, .tax, .tay, .pha]) :
    exec i { s with a := v } = .next (if i.mnemonic ∈ [.lda, .txa, .tya, .pla] then t else { t with a := v }) := by
  cases i
  case staZp | staZpx | staAbs | staAbsx | staAbsy | cmpImm | cmpZp | cmpZpx | cmpAbs | cmpAbsx | cmpAbsy | tax | tay |
      pha =>
    simp [Instr.mnemonic] at hi
  all_goals cases h; rfl

theorem exec_ignores_x (h : exec i s = .next t) (hi : i.mnemonic ∉ [.stx, .cpx, .txa, .inx, .dex]) (hzpx : i.mode ≠ .zpx)
    (habsx : i.mode ≠ .absx) :
    exec i { s with x := v } = .next (if i.mnemonic ∈ [.ldx, .tax] then t else { t with x := v }) := by
  cases i
  case stxZp | stxAbs | cpxImm | cpxZp | cpxAbs | txa | inx | dex => simp [Instr.mnemonic] at hi
  case ldaZpx | ldyZpx | staZpx | styZpx | cmpZpx => exact absurd rfl hzpx
  case ldaAbsx | ldyAbsx | staAbsx | cmpAbsx => exact absurd rfl habsx
  all_goals cases h; rfl

theorem exec_ignores_y (h : exec i s = .next t) (hi : i.mnemonic ∉ [.sty, .cpy, .tya, .iny, .dey])
    (habsy : i.mode ≠ .absy) :
    exec i { s with y := v } = .next (if i.mnemonic ∈ [.ldy, .tay] then t else { t with y := v }) := by
  cases i
  case styZp | styZpx | styAbs | cpyImm | cpyZp | cpyAbs | tya | iny | dey => simp [Instr.mnemonic] at hi
  case ldaAbsy | ldxAbsy | staAbsy | cmpAbsy => exact absurd rfl habsy
  all_goals cases h; rfl

theorem exec_ignores_sp (h : exec i s = .next t) (hi : i.mnemonic ∉ [.pha, .php, .pla, .plp, .jsr, .rts]) :
    exec i { s with sp := v } = .next { t with sp := v } := by
  cases i
  case pha | php | pla | plp | jsrAbs | rts => simp [Instr.mnemonic] at hi
  all_goals cases h; rfl

end Readers

/-- Settles O32: each register by its own case split over the forms. -/
theorem eachRegisterHasItsReaders : Obligations.EachRegisterHasItsReaders := by
  unfold Obligations.EachRegisterHasItsReaders
  intro i s t v h
  exact ⟨exec_ignores_a v h, exec_ignores_x v h, exec_ignores_y v h, exec_ignores_sp v h⟩

end Sys2Proof.Proofs
end

section
/-! Stack round trips (42_stack.md R164, 43_control.md R172, R173): a push and its pull, a call and its return. -/

namespace Sys2Proof.Proofs

open Sys2Proof.Machine Sys2Proof.Laws

/-! A push and its pull. -/

/-- The pull reads the byte the push wrote to, at every S. -/
theorem push_pull_fst (s : State) (v : Byte) : (s.push v).pull.1 = (s.push v).peek (stackAddr s.sp) := by
  rw [pull_fst, push_sp, BitVec.sub_add_cancel]

theorem push_pull_sp (s : State) (v : Byte) : (s.push v).pull.2.sp = s.sp := BitVec.sub_add_cancel s.sp 1#8

theorem push_pull_ram {s : State} (v : Byte) (h : s.ramAt (stackAddr s.sp) = true) : (s.push v).pull.1 = v :=
  (push_pull_fst s v).trans (push_peek_same v h)

theorem push_pull_unmapped {s : State} (v : Byte) (h : s.unmappedAt (stackAddr s.sp) = true) :
    (s.push v).pull.1 = 0xFF#8 :=
  (push_pull_fst s v).trans (peek_unmapped ((access_unmappedAt s (.write (stackAddr s.sp) v) _).trans h))

/-- Settles O48: the pulled byte is the one pushed, or open bus, and S comes back. -/
theorem pushThenPullRestores : Obligations.PushThenPullRestores := by
  unfold Obligations.PushThenPullRestores
  refine fun s => ⟨fun hram => ⟨?_, ?_⟩, fun hopen => ⟨?_, ?_⟩⟩
  · have ha := push_pull_ram s.a hram
    have hnz : NzBits s.a s.p (nzUpdate s.p (s.push s.a).pull.1) := by
      rw [ha]
      exact nzUpdate_nzBits s.p s.a
    exact ⟨_, _, exec_pha s, exec_pla _, ha, push_pull_sp s s.a, hnz, rfl, rfl, rfl⟩
  · exact ⟨_, _, exec_php s, exec_plp _, push_pull_ram s.p hram, push_pull_sp s s.p, rfl, rfl, rfl, rfl⟩
  · exact ⟨_, _, exec_pha s, exec_pla _, push_pull_unmapped s.a hopen, push_pull_sp s s.a⟩
  · exact ⟨_, _, exec_php s, exec_plp _, push_pull_unmapped s.p hopen, push_pull_sp s s.p⟩

/-! A call and its return. -/

/-- Where RAM answers at both stack bytes, the pulls of a return give back the address a call pushed and the old S, and reach no
region. -/
theorem pushReturn_pullReturn {s : State} (hhigh : s.ramAt (stackAddr s.sp) = true)
    (hlow : s.ramAt (stackAddr (s.sp - 1#8)) = true) :
    s.pushReturn.pullReturn.1 = s.pc - 1#16 ∧ s.pushReturn.pullReturn.2.sp = s.sp ∧
      s.pushReturn.pullReturn.2.regions = s.pushReturn.regions := by
  have hsp1 : s.pushReturn.sp + 1#8 = s.sp - 1#8 := BitVec.sub_add_cancel _ _
  have hsp2 : s.pushReturn.sp + 1#8 + 1#8 = s.sp := by rw [hsp1, BitVec.sub_add_cancel]
  have hplain {a : Word} (h : s.ramAt a = true) : s.pushReturn.deviceAt a = false :=
    ramAt_not_deviceAt ((push_ramAt _ _ a).trans ((push_ramAt s _ a).trans h))
  obtain ⟨hpulled, hafter⟩ := pullReturn_plain (s := s.pushReturn) (by rw [hsp1]; exact hplain hlow)
    (by rw [hsp2]; exact hplain hhigh)
  obtain ⟨hhi, hlo⟩ := pushReturn_peek hhigh hlow
  rw [hsp2, hsp1, hhi, hlo, concat16_hi_lo] at hpulled
  exact ⟨hpulled, hsp2, by rw [hafter]⟩

/-- RTS is the same wherever PC stands. -/
theorem exec_rts_setPc (s : State) (w : Word) :
    exec .rts (s.setPc w) = .next (s.pullReturn.2.setPc (s.pullReturn.1 + 1#16)) := rfl

/-- Settles O53: the address pulled is PC - 1, and RTS goes one past it. -/
theorem callThenReturnComesBack : Obligations.CallThenReturnComesBack := by
  unfold Obligations.CallThenReturnComesBack
  intro s w hhigh hlow
  obtain ⟨haddr, hsp, hregions⟩ := pushReturn_pullReturn hhigh hlow
  have hpc : s.pushReturn.pullReturn.1 + 1#16 = s.pc := by rw [haddr, BitVec.sub_add_cancel]
  refine ⟨s.pushReturn.setPc w, _, rfl, rfl, exec_rts_setPc s.pushReturn w, hpc, by rw [setPc_sp, hsp], ?_, ?_, ?_, ?_,
    by rw [setPc_regions, hregions, setPc_regions]⟩
  all_goals simp [State.pushReturn, State.pullReturn]

end Sys2Proof.Proofs
end

section
/-! The addressing modes, loads, stores and compares in every form (30_encoding.md R87 to R96, 40_load_store.md, 41_compare.md),
JMP (abs) and NOP. -/

namespace Sys2Proof.Proofs

open Sys2Proof.Machine Sys2Proof.Laws

/-! Effective addresses. -/

theorem word_add_zext16_toNat (w : Word) (b : Byte) : (w + zext16 b).toNat = (w.toNat + b.toNat) % 65536 := by
  rw [BitVec.toNat_add, zext16_toNat]

/-- Settles O34: an index is added in eight bits within the zero page and in sixteen elsewhere. -/
theorem effectiveAddressArithmetic : Obligations.EffectiveAddressArithmetic := by
  unfold Obligations.EffectiveAddressArithmetic
  intro s b w
  exact ⟨zext16_toNat b, (zext16_toNat _).trans (BitVec.toNat_add b s.x), rfl, word_add_zext16_toNat w s.x,
    word_add_zext16_toNat w s.y, _, _, rfl, rfl, concat16_toNat _ _, rfl⟩

/-! Loads. -/

/-- An instruction that reads ea, puts the byte where `put` puts it, reaching no region, and then applies the NZ update of the byte. -/
theorem loadsByte_of_exec {i : Instr} {s : State} {ea : Word} {put : State → Byte → State}
    (hexec : exec i s = .next (s.withOperand ea fun t b => (put t b).setP (nzUpdate s.p b)))
    (hregions : ∀ t b, (put t b).regions = t.regions) : LoadsByte i s ea put := by
  have hkept : BytesKept s (s.withOperand ea fun t b => (put t b).setP (nzUpdate s.p b)) [] := fun a ha hplain =>
    (congrArg (peekFrom 0 · a) (hregions _ _)).trans (bytesKept_read s ea (s.peek ea) a ha hplain)
  exact ⟨nzUpdate s.p (s.peek ea), nzUpdate_nzBits s.p (s.peek ea), ⟨hexec, hkept⟩, peek_unmapped⟩

section LoadedRegister

variable {i : Instr} {s : State} {ea : Word}

theorem loadsByte_of_loadA (hexec : exec i s = .next (s.withOperand ea State.loadA)) : LoadsByte i s ea State.setA :=
  loadsByte_of_exec hexec fun _ _ => rfl

theorem loadsByte_of_loadX (hexec : exec i s = .next (s.withOperand ea State.loadX)) : LoadsByte i s ea State.setX :=
  loadsByte_of_exec hexec fun _ _ => rfl

theorem loadsByte_of_loadY (hexec : exec i s = .next (s.withOperand ea State.loadY)) : LoadsByte i s ea State.setY :=
  loadsByte_of_exec hexec fun _ _ => rfl

end LoadedRegister

/-- Settles O36: each form is a load of A, of its operand or from its effective address. -/
theorem ldaLoadsTheAccumulator : Obligations.LdaLoadsTheAccumulator := by
  unfold Obligations.LdaLoadsTheAccumulator
  intro s v z w put
  exact ⟨⟨runsFrom_encode (.ldaImm v), loadsValue_of_loadA rfl⟩, ⟨runsFrom_encode (.ldaZp z), loadsByte_of_loadA rfl⟩,
    ⟨runsFrom_encode (.ldaZpx z), loadsByte_of_loadA rfl⟩, ⟨runsFrom_encode (.ldaAbs w), loadsByte_of_loadA rfl⟩,
    ⟨runsFrom_encode (.ldaAbsx w), loadsByte_of_loadA rfl⟩, ⟨runsFrom_encode (.ldaAbsy w), loadsByte_of_loadA rfl⟩⟩

/-- Settles O37: each form is a load of X, of its operand or from its effective address. -/
theorem ldxLoadsX : Obligations.LdxLoadsX := by
  unfold Obligations.LdxLoadsX
  intro s v z w put
  exact ⟨⟨runsFrom_encode (.ldxImm v), loadsValue_of_loadX rfl⟩, ⟨runsFrom_encode (.ldxZp z), loadsByte_of_loadX rfl⟩,
    ⟨runsFrom_encode (.ldxAbs w), loadsByte_of_loadX rfl⟩, ⟨runsFrom_encode (.ldxAbsy w), loadsByte_of_loadX rfl⟩⟩

/-- Settles O38: each form is a load of Y, of its operand or from its effective address. -/
theorem ldyLoadsY : Obligations.LdyLoadsY := by
  unfold Obligations.LdyLoadsY
  intro s v z w put
  exact ⟨⟨runsFrom_encode (.ldyImm v), loadsValue_of_loadY rfl⟩, ⟨runsFrom_encode (.ldyZp z), loadsByte_of_loadY rfl⟩,
    ⟨runsFrom_encode (.ldyZpx z), loadsByte_of_loadY rfl⟩, ⟨runsFrom_encode (.ldyAbs w), loadsByte_of_loadY rfl⟩,
    ⟨runsFrom_encode (.ldyAbsx w), loadsByte_of_loadY rfl⟩⟩

/-! Stores. -/

/-- An instruction whose meaning is one write of v at ea. -/
theorem storesByte_of_memWrite {i : Instr} {s : State} {ea : Word} {v : Byte} (hexec : exec i s = .next (s.memWrite ea v)) :
    StoresByte i s ea v :=
  ⟨⟨hexec, bytesKept_write s ea v⟩, peek_write_same v, access_unmapped (acc := .write ea v)⟩

/-- Settles O39: each form is one write of A at its effective address. -/
theorem staStoresTheAccumulator : Obligations.StaStoresTheAccumulator := by
  unfold Obligations.StaStoresTheAccumulator
  intro s z w
  exact ⟨⟨runsFrom_encode (.staZp z), storesByte_of_memWrite rfl⟩, ⟨runsFrom_encode (.staZpx z), storesByte_of_memWrite rfl⟩,
    ⟨runsFrom_encode (.staAbs w), storesByte_of_memWrite rfl⟩, ⟨runsFrom_encode (.staAbsx w), storesByte_of_memWrite rfl⟩,
    ⟨runsFrom_encode (.staAbsy w), storesByte_of_memWrite rfl⟩⟩

/-- Settles O40: each form is one write of X at its effective address. -/
theorem stxStoresX : Obligations.StxStoresX := by
  unfold Obligations.StxStoresX
  intro s z w
  exact ⟨⟨runsFrom_encode (.stxZp z), storesByte_of_memWrite rfl⟩, ⟨runsFrom_encode (.stxAbs w), storesByte_of_memWrite rfl⟩⟩

/-- Settles O41: each form is one write of Y at its effective address. -/
theorem styStoresY : Obligations.StyStoresY := by
  unfold Obligations.StyStoresY
  intro s z w
  exact ⟨⟨runsFrom_encode (.styZp z), storesByte_of_memWrite rfl⟩, ⟨runsFrom_encode (.styZpx z), storesByte_of_memWrite rfl⟩,
    ⟨runsFrom_encode (.styAbs w), storesByte_of_memWrite rfl⟩⟩

/-! Compares. -/

section ComparedRegister

variable {i : Instr} {s : State} {r : Byte}

/-- An instruction whose meaning is the compare rule on r and an immediate. -/
theorem comparesValue_of_compare {m : Byte} (hexec : exec i s = .next (s.compare r m)) : ComparesValue i s m r :=
  ⟨compareFlags s.p r m, compareFlags_compareBits s.p r m, hexec, fun a _ _ => setP_peek s _ a⟩

/-- An instruction whose meaning is one read at ea and the compare rule on r and the byte. -/
theorem comparesByte_of_compare {ea : Word} (hexec : exec i s = .next (s.withOperand ea fun t m => t.compare r m)) :
    ComparesByte i s ea r :=
  ⟨compareFlags s.p r (s.peek ea), compareFlags_compareBits s.p r (s.peek ea), ⟨hexec, bytesKept_read s ea (s.peek ea)⟩,
    peek_unmapped⟩

end ComparedRegister

/-- Settles O43: each form is the compare rule on its register, with its operand or the byte at its effective address. -/
theorem everyCompareFollowsTheCompareRule : Obligations.EveryCompareFollowsTheCompareRule := by
  unfold Obligations.EveryCompareFollowsTheCompareRule
  intro s m z w
  exact ⟨⟨runsFrom_encode (.cmpImm m), comparesValue_of_compare rfl⟩,
    ⟨runsFrom_encode (.cmpZp z), comparesByte_of_compare rfl⟩, ⟨runsFrom_encode (.cmpZpx z), comparesByte_of_compare rfl⟩,
    ⟨runsFrom_encode (.cmpAbs w), comparesByte_of_compare rfl⟩, ⟨runsFrom_encode (.cmpAbsx w), comparesByte_of_compare rfl⟩,
    ⟨runsFrom_encode (.cmpAbsy w), comparesByte_of_compare rfl⟩,
    ⟨runsFrom_encode (.cpxImm m), comparesValue_of_compare rfl⟩,
    ⟨runsFrom_encode (.cpxZp z), comparesByte_of_compare rfl⟩, ⟨runsFrom_encode (.cpxAbs w), comparesByte_of_compare rfl⟩,
    ⟨runsFrom_encode (.cpyImm m), comparesValue_of_compare rfl⟩,
    ⟨runsFrom_encode (.cpyZp z), comparesByte_of_compare rfl⟩, ⟨runsFrom_encode (.cpyAbs w), comparesByte_of_compare rfl⟩⟩

/-! JMP (abs) and NOP. -/

/-- JMP (abs) reads the two bytes at the pointer, low byte first, and goes to their address. -/
theorem exec_jmpInd (w : Word) (s : State) {lo hi : Byte} (hlo : lo = s.peek w)
    (hhi : hi = (s.access (.read w lo)).peek (w + 1#16)) :
    exec (.jmpInd w) s = .next
      { (s.access (.read w lo)).access (.read (w + 1#16) hi) with pc := concat16 hi lo } := by
  subst hlo hhi
  rfl

/-- Settles O50: the second read follows the first, whose access a device may have noted; open bus gives 0xFFFF. -/
theorem jmpIndirectReadsItsTarget : Obligations.JmpIndirectReadsItsTarget := by
  unfold Obligations.JmpIndirectReadsItsTarget
  refine fun w => ⟨runsFrom_encode (.jmpInd w), fun s => ⟨_, _, _, rfl, rfl, concat16_toNat _ _,
    ⟨exec_jmpInd w s rfl rfl, bytesKept_read_read s _ _ _ _⟩, fun hlo hhi => ?_⟩⟩
  rw [peek_unmapped hlo, peek_unmapped ((access_unmappedAt s _ _).trans hhi)]
  rfl

theorem exec_nop (s : State) : exec .nop s = .next s := rfl

/-- Settles O57: NOP answers the state it was given. -/
theorem nopChangesNothing : Obligations.NopChangesNothing := by
  unfold Obligations.NopChangesNothing
  exact ⟨runsFrom_encode .nop, fun s => ⟨exec_nop s, bytesKept_refl s⟩⟩

end Sys2Proof.Proofs
end
